-- ==== Sys2Proof/Word.lean ====
section
/-! DEFINITION. The two word types of the CORE. All values are unsigned (00_scope.md R10), all arithmetic is on
32-bit words with wraparound shifts (R11), and a byte sequence is a finite list of bytes (R12). -/

namespace Sys2Proof

/-- A 32-bit word: a CRC value, a table entry, a header (00_scope.md R9, R10). -/
abbrev Word := BitVec 32

/-- An 8-bit byte of a command stream, a response stream or a payload (00_scope.md R12). -/
abbrev Byte := BitVec 8

end Sys2Proof
end

