-- ==== Sys2Proof/Config.lean ====
section
/-! DEFINITION. The constants an implementation of the CORE fixes (00_scope.md R9) and the model's free values.
The two parameters R9 leaves open as numbers, `ACC_COUNT` and `GEN_LATENCY`, and the choice `TABLE_IMPL`, are plain
data of the state (Machine/State.lean), so that every statement is about every value of them. -/

namespace Sys2Proof

/-- `POLY`, the generator polynomial (00_scope.md R2, R9). -/
def Config.poly : Word := 0x04C11DB7#32

/-- `TABLE_ENTRIES` (00_scope.md R9). -/
def Config.tableEntries : Nat := 256

/-- `DIGEST_SIZE`, in bytes (00_scope.md R9). -/
def Config.digestSize : Nat := 4

/-- `BLOCK_SIZE`, in bytes (00_scope.md R9). -/
def Config.blockSize : Nat := 1

/-- `INIT_VALUE`, in external form (00_scope.md R9). -/
def Config.initValue : Word := 0#32

/-- `LEN_MAX`, the most payload bytes of one command (00_scope.md R9). -/
def Config.lenMax : Nat := 2 ^ 24 - 1

/-- The largest `ACC_COUNT` (00_scope.md R9: 1 to 16). -/
def Config.accMax : Nat := 16

/-- `TABLE_IMPL`: the table is generated after reset, or is a ROM with identical contents (00_scope.md R9, D6, U13). -/
inductive TableImpl where
  | generated
  | rom
  deriving DecidableEq, Repr

/-- FREE VALUE (entry 6). What table entry `i` reads as before the generator has written it: the spec calls it
undefined (10_state.md R34). -/
opaque Config.unbuiltEntry : Nat → Word

/-- FREE VALUE (entry 8). The k-th free choice among the hosts that have a byte to send (20_memory.md R54,
30_encoding.md R74, U4). Only its value modulo the number of such hosts is used. -/
opaque Config.arbiter : Nat → Nat

/-- FREE VALUE (entry 4). What `W` holds after a command that used it, by the number of the packet: outside a command the
spec allows it any value (10_state.md R25, U1), and no rule reads it there. -/
opaque Config.idleW : Nat → Word

end Sys2Proof
end

