-- ==== Sys2Proof/Syntax.lean ====
section
/-! DEFINITION. The commands of `CRC32ITU-CMD v1` at the operation level, which is the normative one
(00_scope.md R7): one constructor per row of the opcode map (30_encoding.md R67) with the operands of R68. -/

namespace Sys2Proof

/-- The nine commands (30_encoding.md R67, R68). `a` is an accumulator number of 4 bits (R63), `data` and `pre` are
payload bytes (R66), `prior` is any 32-bit value (R65), `idx` an 8-bit table index (R64). -/
inductive Instr where
  | checksum (data : List Byte)
  | update (prior : Word) (data : List Byte)
  | reset (a : BitVec 4)
  | write (a : BitVec 4) (data : List Byte)
  | sum32 (a : BitVec 4)
  | sum (a : BitVec 4) (pre : List Byte)
  | size
  | bsize
  | tblrd (idx : Byte)
  deriving DecidableEq, Repr

/-- What the field `OPC` can name (30_encoding.md R67). -/
inductive Opcode where
  | checksum
  | update
  | reset
  | write
  | sum32
  | sum
  | size
  | bsize
  | tblrd
  deriving DecidableEq, Repr

/-- The three causes of a header fault (60_exceptions.md R172). -/
inductive Cause where
  | illegalOpcode
  | reservedNonzero
  | badAsel
  deriving DecidableEq, Repr

/-- The opcode of a command (30_encoding.md R67). -/
def Instr.opcode : Instr → Opcode
  | .checksum _ => .checksum
  | .update _ _ => .update
  | .reset _ => .reset
  | .write _ _ => .write
  | .sum32 _ => .sum32
  | .sum _ _ => .sum
  | .size => .size
  | .bsize => .bsize
  | .tblrd _ => .tblrd

/-- The accumulator a command names, if it names one (30_encoding.md R63). -/
def Instr.accOf : Instr → Option (BitVec 4)
  | .checksum _ => none
  | .update _ _ => none
  | .reset a => some a
  | .write a _ => some a
  | .sum32 a => some a
  | .sum a _ => some a
  | .size => none
  | .bsize => none
  | .tblrd _ => none

/-- The payload bytes of a command, in order (30_encoding.md R66, R68). -/
def Instr.payload : Instr → List Byte
  | .checksum data => data
  | .update _ data => data
  | .reset _ => []
  | .write _ data => data
  | .sum32 _ => []
  | .sum _ pre => pre
  | .size => []
  | .bsize => []
  | .tblrd _ => []

end Sys2Proof
end

