-- ==== Sys2Proof/WellFormed.lean ====
section
/-! DEFINITION. When a command has a legal packet on a CORE with `n` accumulators. Two checks: the payload fits in
`IMM24` (00_scope.md R9 `LEN_MAX`, 30_encoding.md R64) and the accumulator it names exists (R63, R71). The other
operand ranges of 30_encoding.md R78 (`prior < 2^32`, `idx <= 255`, `a <= 15`) are the operands' types. -/

namespace Sys2Proof

/-- The payload length is at most `LEN_MAX` (00_scope.md R9, 30_encoding.md R66). -/
def Instr.lenOk (i : Instr) : Bool :=
  decide (i.payload.length ≤ Config.lenMax)

/-- The accumulator a command names is one of the `n` that exist (30_encoding.md R71). -/
def Instr.accOk (n : Nat) (i : Instr) : Bool :=
  match i.accOf with
  | some a => decide (a.toNat < n)
  | none => true

/-- The command has a legal packet on a CORE with `n` accumulators (30_encoding.md R60, R63, R71). -/
def Instr.wf (n : Nat) (i : Instr) : Bool :=
  i.lenOk && i.accOk n

end Sys2Proof
end

