-- ==== Sys2Proof/Decode.lean ====
section
/-! DEFINITION. Byte order, header fields, the header decoder of 30_encoding.md R72, the operand decoder of R68, the
packet decoder (total on any bytes) and the packet encoder of R60. -/

namespace Sys2Proof

/-! ### Byte order -/

/-- `BE32(v)`: the 4 bytes of a word, most significant first (00_scope.md R13). -/
def be32 (v : Word) : List Byte :=
  [v.extractLsb' 24 8, v.extractLsb' 16 8, v.extractLsb' 8 8, v.extractLsb' 0 8]

/-- `BE32inv(b0,b1,b2,b3)` (00_scope.md R13). -/
def be32inv (b0 b1 b2 b3 : Byte) : Word :=
  (b0.setWidth 32 <<< 24) ^^^ (b1.setWidth 32 <<< 16) ^^^ (b2.setWidth 32 <<< 8) ^^^ b3.setWidth 32

/-- The big-endian value of a buffer. On 4 bytes it is `BE32inv` (00_scope.md R13; the law is
`beWord_four`); the buffers it is used on hold 4 bytes in every state a run reaches (entry 16). -/
def beWord (bs : List Byte) : Word :=
  bs.foldl (fun v b => (v <<< 8) ^^^ b.setWidth 32) 0#32

/-! ### Header fields (30_encoding.md R61 to R64) -/

/-- `OPC = H[31:28]` (30_encoding.md R62). -/
def opcField (h : Word) : BitVec 4 := h.extractLsb' 28 4

/-- `ASEL = H[27:24]` (30_encoding.md R63). -/
def aselField (h : Word) : BitVec 4 := h.extractLsb' 24 4

/-- `IMM24 = H[23:0]` (30_encoding.md R64). -/
def immField (h : Word) : BitVec 24 := h.extractLsb' 0 24

/-- `IDX = IMM24[7:0]` (30_encoding.md R64). -/
def idxField (h : Word) : Byte := h.extractLsb' 0 8

/-- `IMM24[23:8]`, reserved in `TBLRD` (30_encoding.md R64). -/
def immHighField (h : Word) : BitVec 16 := h.extractLsb' 8 16

/-! ### The opcode map (30_encoding.md R67) -/

/-- The value of `OPC` that selects a command (30_encoding.md R67). -/
def Opcode.code : Opcode → BitVec 4
  | .checksum => 0x1#4
  | .update => 0x2#4
  | .reset => 0x3#4
  | .write => 0x4#4
  | .sum32 => 0x5#4
  | .sum => 0x6#4
  | .size => 0x7#4
  | .bsize => 0x8#4
  | .tblrd => 0x9#4

/-- Every command of the opcode map, in its order. -/
def Opcode.all : List Opcode :=
  [.checksum, .update, .reset, .write, .sum32, .sum, .size, .bsize, .tblrd]

/-- The command an `OPC` value selects; none for the reserved values 0x0 and 0xA to 0xF (30_encoding.md R62, R69). -/
def opcodeOf (c : BitVec 4) : Option Opcode :=
  Opcode.all.find? (fun o => o.code == c)

/-- `ASEL` names an accumulator for these commands; for the others it is reserved (30_encoding.md R63). -/
def Opcode.usesAsel : Opcode → Bool
  | .checksum => false
  | .update => false
  | .reset => true
  | .write => true
  | .sum32 => true
  | .sum => true
  | .size => false
  | .bsize => false
  | .tblrd => false

/-- What `IMM24` holds for a command: a payload length, a table index, or nothing (30_encoding.md R64). -/
inductive ImmUse where
  | length
  | index
  | reserved
  deriving DecidableEq, Repr

/-- The use of `IMM24` (30_encoding.md R64, R67). -/
def Opcode.immUse : Opcode → ImmUse
  | .checksum => .length
  | .update => .length
  | .reset => .reserved
  | .write => .length
  | .sum32 => .reserved
  | .sum => .length
  | .size => .reserved
  | .bsize => .reserved
  | .tblrd => .index

/-- The number of `PRIOR` bytes after the header (30_encoding.md R60, R65). -/
def Opcode.priorLen : Opcode → Nat
  | .checksum => 0
  | .update => 4
  | .reset => 0
  | .write => 0
  | .sum32 => 0
  | .sum => 0
  | .size => 0
  | .bsize => 0
  | .tblrd => 0

/-- The number of payload bytes a header announces: `LEN` or `PLEN`, or 0 (30_encoding.md R64, R66). -/
def payloadLen (op : Opcode) (h : Word) : Nat :=
  match op.immUse with
  | .length => (immField h).toNat
  | .index => 0
  | .reserved => 0

/-! ### Decoding a header (30_encoding.md R69 to R72) -/

/-- Every field that is reserved for the opcode is zero (30_encoding.md R70). -/
def reservedClear (op : Opcode) (h : Word) : Bool :=
  (op.usesAsel || aselField h == 0#4) &&
    (match op.immUse with
     | .length => true
     | .index => immHighField h == 0#16
     | .reserved => immField h == 0#24)

/-- What a header decodes to. -/
inductive HeaderResult where
  | legal (op : Opcode)
  | illegal (c : Cause)
  deriving DecidableEq, Repr

/-- `Decode(H)` on a CORE with `n` accumulators: the checks in the order of 30_encoding.md R72; the first that applies
decides. -/
def decodeHeader (n : Nat) (h : Word) : HeaderResult :=
  match opcodeOf (opcField h) with
  | none => .illegal .illegalOpcode
  | some op =>
    if reservedClear op h = false then .illegal .reservedNonzero
    else if op.usesAsel = true ∧ n ≤ (aselField h).toNat then .illegal .badAsel
    else .legal op

/-- The command of a legal header with the operands of 30_encoding.md R68, from the `PRIOR` bytes and the payload. -/
def operands (op : Opcode) (h : Word) (prior data : List Byte) : Instr :=
  match op with
  | .checksum => .checksum data
  | .update => .update (beWord prior) data
  | .reset => .reset (aselField h)
  | .write => .write (aselField h) data
  | .sum32 => .sum32 (aselField h)
  | .sum => .sum (aselField h) data
  | .size => .size
  | .bsize => .bsize
  | .tblrd => .tblrd (idxField h)

/-! ### Decoding a packet -/

/-- What the bytes at the front of a command stream are: a command and the bytes after its packet, an illegal header
(of which only 4 bytes are consumed, 30_encoding.md R73), or too few bytes for a packet. -/
inductive Decoded where
  | command (i : Instr) (rest : List Byte)
  | illegal (c : Cause) (h : Word) (rest : List Byte)
  | short
  deriving DecidableEq, Repr

/-- The packet at the front of a byte sequence (30_encoding.md R60, R68, R72, R73). -/
def decode (n : Nat) : List Byte → Decoded
  | b0 :: b1 :: b2 :: b3 :: rest =>
    let h := be32inv b0 b1 b2 b3
    match decodeHeader n h with
    | .illegal c => .illegal c h rest
    | .legal op =>
      let body := rest.drop op.priorLen
      if rest.length < op.priorLen + payloadLen op h then .short
      else .command (operands op h (rest.take op.priorLen) (body.take (payloadLen op h))) (body.drop (payloadLen op h))
  | _ => .short

/-! ### Encoding (30_encoding.md R60, R61, R65, R67) -/

/-- The `ASEL` field of a command's header (30_encoding.md R63: 0 where it is reserved). -/
def Instr.asel (i : Instr) : BitVec 4 := i.accOf.getD 0#4

/-- The `IMM24` field of a command's header (30_encoding.md R64). -/
def Instr.imm : Instr → BitVec 24
  | .checksum data => BitVec.ofNat 24 data.length
  | .update _ data => BitVec.ofNat 24 data.length
  | .reset _ => 0#24
  | .write _ data => BitVec.ofNat 24 data.length
  | .sum32 _ => 0#24
  | .sum _ pre => BitVec.ofNat 24 pre.length
  | .size => 0#24
  | .bsize => 0#24
  | .tblrd idx => idx.setWidth 24

/-- The `PRIOR` bytes of a command's packet (30_encoding.md R65). -/
def Instr.priorBytes : Instr → List Byte
  | .checksum _ => []
  | .update prior _ => be32 prior
  | .reset _ => []
  | .write _ _ => []
  | .sum32 _ => []
  | .sum _ _ => []
  | .size => []
  | .bsize => []
  | .tblrd _ => []

/-- The header word of a command (30_encoding.md R61). -/
def Instr.header (i : Instr) : Word :=
  i.opcode.code ++ i.asel ++ i.imm

/-- The packet of a command (30_encoding.md R60). -/
def encode (i : Instr) : List Byte :=
  be32 i.header ++ i.priorBytes ++ i.payload

/-! ### The match and mask table (30_encoding.md R72) -/

/-- One row of the match and mask table. -/
structure HeaderRow where
  op : Opcode
  bits : Word
  mask : Word
  deriving DecidableEq, Repr

/-- The match and mask of each header, as 30_encoding.md R72 and the opcode table list them. The decoder above does
not use this table; that the two agree is a statement about it. -/
def headerRows : List HeaderRow :=
  [⟨.checksum, 0x10000000#32, 0xFF000000#32⟩,
   ⟨.update, 0x20000000#32, 0xFF000000#32⟩,
   ⟨.reset, 0x30000000#32, 0xF0FFFFFF#32⟩,
   ⟨.write, 0x40000000#32, 0xF0000000#32⟩,
   ⟨.sum32, 0x50000000#32, 0xF0FFFFFF#32⟩,
   ⟨.sum, 0x60000000#32, 0xF0000000#32⟩,
   ⟨.size, 0x70000000#32, 0xFFFFFFFF#32⟩,
   ⟨.bsize, 0x80000000#32, 0xFFFFFFFF#32⟩,
   ⟨.tblrd, 0x90000000#32, 0xFFFFFF00#32⟩]

/-- A header has the bits of a row. -/
def HeaderRow.covers (r : HeaderRow) (h : Word) : Bool :=
  h &&& r.mask == r.bits

/-! ### The words of the opcode table -/

/-- Byte `k` of a packet whose 32-bit words are numbered from the least significant bits of `w`, each word laid out most
significant byte first (30_encoding.md R61). -/
def tableByte (w k : Nat) : Byte :=
  BitVec.ofNat 8 (w >>> (32 * (k / 4) + 8 * (3 - k % 4)))

/-- `count` bytes of that packet, from byte `k` on. -/
def tableBytes (w k : Nat) : Nat → List Byte
  | 0 => []
  | count + 1 => tableByte w k :: tableBytes w (k + 1) count

/-- What the decoder reads from a row's bits: the header is the first word, and every bit above `nbits` is 0. Every
accumulator number is taken to exist, as on the largest CORE (entry 14). -/
def decodeTableWord (nbits w : Nat) : Option Instr :=
  let v := w % 2 ^ nbits
  let h : Word := BitVec.ofNat 32 v
  match decodeHeader Config.accMax h with
  | .illegal _ => none
  | .legal op =>
    some (operands op h (tableBytes v 4 op.priorLen) (tableBytes v (4 + op.priorLen) (payloadLen op h)))

end Sys2Proof
end

