-- ==== Sys2Proof/Machine/Flags.lean ====
section
/-! DEFINITION. The CORE has no flags (10_state.md R29). The only status a host sees is the byte at the head of each
response (30_encoding.md R76); it is not stored state. -/

namespace Sys2Proof

/-- The code of a fault cause (60_exceptions.md R172). -/
def Cause.code : Cause → Byte
  | .illegalOpcode => 0x01#8
  | .reservedNonzero => 0x02#8
  | .badAsel => 0x03#8

/-- The status byte after every legal command (30_encoding.md R76). -/
def Machine.statusOk : Byte := 0x00#8

/-- The response of a legal command: the status byte, then the result bytes (30_encoding.md R77). -/
def Machine.okResponse (bytes : List Byte) : List Byte := Machine.statusOk :: bytes

end Sys2Proof
end

