-- ==== Sys2Proof/Machine/Table.lean ====
section
/-! DEFINITION. The contents of the lookup table as a pure function (40_table_generator.md R100) and the bit step the
generator repeats. -/

namespace Sys2Proof.Machine

/-- One bit of the division: test the top bit, shift left, subtract the polynomial (40_table_generator.md R100). -/
def bitStep (w : Word) : Word :=
  if w.getMsbD 0 then (w <<< 1) ^^^ Config.poly else w <<< 1

/-- `n` bit steps; `BitDiv` of 41_crc_update.md R124 is 8 of them. -/
def bitSteps : Nat → Word → Word
  | 0, w => w
  | n + 1, w => bitSteps n (bitStep w)

/-- The index in the top byte of a work value: `zext_32(i) << 24` (40_table_generator.md R100 step 1). -/
def seed (i : Byte) : Word := i.setWidth 32 <<< 24

/-- `TableEntry(i)` (40_table_generator.md R100). -/
def tableEntry (i : Byte) : Word := bitSteps 8 (seed i)

/-- `count` entries of the finished table from index `i` on, in index order. -/
def entriesFrom (i : Nat) : Nat → List (Nat × Word)
  | 0 => []
  | count + 1 => (i, tableEntry (BitVec.ofNat 8 i)) :: entriesFrom (i + 1) count

/-- The finished table: every entry `TableEntry(i)`, in index order (40_table_generator.md R101, R102). -/
def builtTable : List (Nat × Word) := entriesFrom 0 Config.tableEntries

end Sys2Proof.Machine
end

