-- ==== Sys2Proof/Machine/State.lean ====
section
/-! DEFINITION. The state of the CORE as plain data (10_state.md R20 to R34), why a step can stop, and the state after
hardware reset (R34). -/

namespace Sys2Proof.Machine

/-- The table index space (10_state.md R33): pairs of an index and a whole 32-bit entry, the smallest unit the spec
addresses (20_memory.md R40; entry 7), indices strictly rising. An index with no pair has not been written. -/
abbrev Memory := List (Nat × Word)

/-- One byte sequence per host: pairs of a host number and its bytes, host numbers strictly rising, no pair with no
bytes. A host with no pair has an empty sequence (entry 9). -/
abbrev Streams := List (Nat × List Byte)

/-- `PSTATE` (10_state.md R28). `pfx` is the spec's `PREFIX`. -/
inductive PState where
  | idle
  | hdr
  | prior
  | data
  | pfx
  deriving DecidableEq, Repr

/-- Why the machine stops with a fault. The spec's own header faults (60_exceptions.md R172) are no such stop: the CORE
takes them, and their entry is a next state. -/
inductive Fault where
  /-- Raised by `respond` when `OWNER` is none: the spec responds to the owner only (30_encoding.md R75) and says
  nothing of a response without one. No run reaches it (`State.Inv`). Safe: the model stops (entry 12). -/
  | noOwner
  deriving DecidableEq, Repr

/-- Why the model gives an instruction no meaning. -/
inductive Refusal where
  /-- Raised by a refused arm of `exec`, for an instruction that has no meaning yet. No arm is refused. Safe. -/
  | notModelled (mnemonic : String)
  deriving DecidableEq, Repr

/-- The state of the CORE, with the parts of its hosts' streams that it reads and appends to. -/
structure State where
  /-- `TABLE` (10_state.md R20). -/
  table : Memory
  /-- `TABLE_READY` (10_state.md R21). -/
  tableReady : Bool
  /-- `ACC[0]` to `ACC[ACC_COUNT-1]`; the length of the list is `ACC_COUNT` (10_state.md R22; entry 1). -/
  acc : List Word
  /-- `W` (10_state.md R25). -/
  w : Word
  /-- `GEN_IDX`, from 0 to 256 (10_state.md R26). -/
  genIdx : Fin 257
  /-- `GEN_BIT`, from 0 to 8 (10_state.md R26). -/
  genBit : Fin 9
  /-- `GEN_W` (10_state.md R26). -/
  genW : Word
  /-- THE MODEL'S: the steps the generator still takes (entry 2). -/
  genLeft : Nat
  /-- `PSTATE` (10_state.md R28). -/
  pstate : PState
  /-- `HDR_BUF` (10_state.md R28). -/
  hdrBuf : List Byte
  /-- `H` (10_state.md R28). -/
  hdr : Word
  /-- `PRIOR_BUF` (10_state.md R28). -/
  priorBuf : List Byte
  /-- The payload bytes taken so far (30_encoding.md R74; entry 17). -/
  payload : List Byte
  /-- `REMAIN` (10_state.md R28). -/
  remain : BitVec 24
  /-- `OWNER` (10_state.md R28). -/
  owner : Option Nat
  /-- `FAULTED` (10_state.md R31). -/
  faulted : Bool
  /-- `FAULT_CAUSE` (10_state.md R31). -/
  faultCause : Byte
  /-- `FAULT_HDR` (10_state.md R31). -/
  faultHdr : Word
  /-- The bytes of each host's command stream that the CORE has not read yet (10_state.md R27; entry 9). -/
  cmd : Streams
  /-- `RESP[h]`: the bytes the CORE has appended and host `h` has not taken yet (10_state.md R32). -/
  resp : Streams
  /-- THE MODEL'S: which free choice between hosts comes next, so the number of the packet (entries 4, 8). -/
  choices : Nat
  /-- The parameter `GEN_LATENCY` (00_scope.md R9; entry 2). No step changes it. -/
  genLatency : Nat
  /-- The parameter `TABLE_IMPL` (00_scope.md R9; entry 3). No step changes it. -/
  tableImpl : TableImpl
  deriving DecidableEq, Repr

/-- `ACC_COUNT` (10_state.md R22). -/
def State.accCount (s : State) : Nat := s.acc.length

/-- What the table holds at the start of generation: nothing written, or with a ROM every entry
(10_state.md R34, 40_table_generator.md R101). -/
def initialTable : TableImpl → Memory
  | .generated => []
  | .rom => builtTable

/-- The state after hardware reset of a CORE with `n` accumulators, latency `latency` and table implementation `impl`,
no host having sent a byte (10_state.md R34). -/
def State.resetWith (n latency : Nat) (impl : TableImpl) : State where
  table := initialTable impl
  tableReady := false
  acc := List.replicate n Config.initValue
  w := 0#32
  genIdx := 0
  genBit := 0
  genW := 0#32
  genLeft := latency
  pstate := .idle
  hdrBuf := []
  hdr := 0#32
  priorBuf := []
  payload := []
  remain := 0#24
  owner := none
  faulted := false
  faultCause := 0#8
  faultHdr := 0#32
  cmd := []
  resp := []
  choices := 0
  genLatency := latency
  tableImpl := impl

/-- The machine right after reset, in the reference configuration `ACC_COUNT = 1` (00_scope.md R9; entries 1 to 3). -/
def State.reset : State := State.resetWith 1 1 .generated

end Sys2Proof.Machine
end

