-- ==== Sys2Proof/Machine/Ops.lean ====
section
/-! DEFINITION. The named operations over the table, the accumulators and the streams (00_scope.md R14), fault entry
(60_exceptions.md R173) and hardware reset, the one way out of a fault (70_reset_and_hazards.md R190). -/

namespace Sys2Proof.Machine

/-- The outcome of a command or a step. -/
abbrev Result := Host.Outcome State Fault Refusal

/-! ### The table (20_memory.md R40 to R42) -/

/-- `MemRead(i, 4)`: one whole entry (20_memory.md R40). An entry nothing has written reads as a free value
(10_state.md R34; entry 6). -/
def Memory.read : Memory → Nat → Word
  | [], i => Config.unbuiltEntry i
  | (k, v) :: m, i => if i = k then v else Memory.read m i

/-- `MemWrite(i, 4, v)` (20_memory.md R41). -/
def Memory.write : Memory → Nat → Word → Memory
  | [], i, v => [(i, v)]
  | (k, u) :: m, i, v =>
    if i < k then (i, v) :: (k, u) :: m
    else if i = k then (i, v) :: m
    else (k, u) :: Memory.write m i v

/-- The indices rise strictly, none is below `lo`, and none is outside the table (20_memory.md R42). -/
def Memory.wfFrom (lo : Nat) : Memory → Bool
  | [] => true
  | (k, _) :: m => decide (lo ≤ k) && decide (k < Config.tableEntries) && Memory.wfFrom (k + 1) m

/-- The canonical form: indices strictly rising, each of the 256 at most once. -/
def Memory.wf (m : Memory) : Bool := Memory.wfFrom 0 m

/-! ### Streams (10_state.md R27, R32) -/

/-- The byte sequence of host `h`. -/
def Streams.get : Streams → Nat → List Byte
  | [], _ => []
  | (k, bs) :: m, h => if h = k then bs else Streams.get m h

/-- Give host `h` the byte sequence `bs`, keeping the canonical form. -/
def Streams.put : Streams → Nat → List Byte → Streams
  | [], h, bs => if bs.isEmpty then [] else [(h, bs)]
  | (k, cs) :: m, h, bs =>
    if h < k then (if bs.isEmpty then (k, cs) :: m else (h, bs) :: (k, cs) :: m)
    else if h = k then (if bs.isEmpty then m else (h, bs) :: m)
    else (k, cs) :: Streams.put m h bs

/-- Append bytes to the sequence of host `h`. -/
def Streams.append (m : Streams) (h : Nat) (bs : List Byte) : Streams :=
  Streams.put m h (Streams.get m h ++ bs)

/-- Remove the first `n` bytes of the sequence of host `h`. -/
def Streams.drop (m : Streams) (h n : Nat) : Streams :=
  Streams.put m h ((Streams.get m h).drop n)

/-- The hosts that have a byte, in rising order. -/
def Streams.ready (m : Streams) : List Nat :=
  (m.filter (fun e => !e.2.isEmpty)).map Prod.fst

/-- Host numbers rise strictly, none is below `lo`, and no listed sequence is empty. -/
def Streams.wfFrom (lo : Nat) : Streams → Bool
  | [] => true
  | (k, bs) :: m => decide (lo ≤ k) && !bs.isEmpty && Streams.wfFrom (k + 1) m

/-- The canonical form of streams. -/
def Streams.wf (m : Streams) : Bool := Streams.wfFrom 0 m

/-! ### Accumulators (10_state.md R22, R24) -/

/-- `ACC[a]`. Read only where `a < ACC_COUNT` (`withAcc`). -/
def accRead (a : BitVec 4) (s : State) : Word := s.acc.getD a.toNat Config.initValue

/-- `ACC[a] <- v`. -/
def accWrite (a : BitVec 4) (v : Word) (s : State) : State := { s with acc := s.acc.set a.toNat v }

/-! ### Responses (30_encoding.md R75) -/

/-- `respond(bytes)`: append to the response stream of `OWNER` (30_encoding.md R75, 10_state.md R32). -/
def respond (bytes : List Byte) (s : State) : Result :=
  match s.owner with
  | some h => .next { s with resp := s.resp.append h bytes }
  | none => .fault .noOwner

/-! ### Taking a header fault and leaving it (60_exceptions.md R173, R177) -/

/-- `raise Fault(cause, H)` (60_exceptions.md R173). -/
def raiseFault (c : Cause) (h : Word) (s : State) : Result :=
  respond [c.code] { s with faulted := true, faultCause := c.code, faultHdr := h, pstate := .idle }

/-- `HardwareReset()` (70_reset_and_hazards.md R190), which can occur at any time: every field takes its value of
10_state.md R34, and the next byte of each command stream then starts a header. DESIGN CHOICE (entry 9): the hosts' unread
command bytes stay. The parameters and the count of free choices stay (entries 1 to 3, 8). -/
def hardwareReset (s : State) : State :=
  { State.resetWith s.accCount s.genLatency s.tableImpl with cmd := s.cmd, choices := s.choices }

end Sys2Proof.Machine
end

