-- ==== Sys2Proof/Machine/Datapath.lean ====
section
/-! DEFINITION. The byte-at-a-time datapath (41_crc_update.md R120, R121), over any table `T` and over the state, and
the pure functions `Step`, `Update` and `Checksum` over the finished table. -/

namespace Sys2Proof.Machine

/-- `Step(w, b)` with table `T`: `T(w[31:24] ^ b) ^ (w << 8)` (41_crc_update.md R120). -/
def stepWith (T : Byte → Word) (w : Word) (b : Byte) : Word :=
  T (w.extractLsb' 24 8 ^^^ b) ^^^ (w <<< 8)

/-- `Step` over a byte sequence in order (41_crc_update.md R121 step 2). -/
def feedWith (T : Byte → Word) (w : Word) (data : List Byte) : Word :=
  data.foldl (stepWith T) w

/-- `Update(val, s)` with table `T`: complement, step over the bytes, complement (41_crc_update.md R121). -/
def updateWith (T : Byte → Word) (val : Word) (data : List Byte) : Word :=
  ~~~(feedWith T (~~~val) data)

/-- `Step(w, b)` over the finished table (41_crc_update.md R120). -/
def crcStep (w : Word) (b : Byte) : Word := stepWith tableEntry w b

/-- `Update(val, s)` over the finished table (41_crc_update.md R121). -/
def crcUpdate (val : Word) (data : List Byte) : Word := updateWith tableEntry val data

/-- `Checksum(s) = Update(0, s)` (41_crc_update.md R122). -/
def crcChecksum (data : List Byte) : Word := crcUpdate Config.initValue data

/-- `BitDiv(r)` (41_crc_update.md R124). -/
def bitDiv (r : Word) : Word := bitSteps 8 r

/-- The table as a function of a byte: `T(i) = MemRead(i, 4)` (00_scope.md R15). -/
def tableOf (m : Memory) (i : Byte) : Word := m.read i.toNat

/-- `W <- ~val` (41_crc_update.md R121 step 1). -/
def loadW (val : Word) (s : State) : State := { s with w := ~~~val }

/-- `W <- Step(W, b)` for each byte in order, reading the state's table (41_crc_update.md R121 step 2). -/
def feedW (data : List Byte) (s : State) : State := { s with w := feedWith (tableOf s.table) s.w data }

/-- `~W`, the external value (41_crc_update.md R121 step 3). -/
def externalW (s : State) : Word := ~~~s.w

/-- The command that used `W` ends: from here on `W` is any value (10_state.md R25, U1; entry 4). -/
def releaseW (s : State) : State := { s with w := Config.idleW s.choices }

end Sys2Proof.Machine
end

