-- ==== Sys2Proof/Machine/Operands.lean ====
section
/-! DEFINITION. The operand forms of the commands: an accumulator, and the length of a payload (30_encoding.md R63,
R64, R68). The payload, `PRIOR` and the table index reach a meaning as its arguments. -/

namespace Sys2Proof.Machine

/-- Run `body` when accumulator `a` exists; else the header `h` that names it is illegal: `BAD_ASEL`
(30_encoding.md R71). The decoder has made this check before a command runs, so no run of `step` takes the second
branch (entry 15). -/
def withAcc (a : BitVec 4) (h : Word) (s : State) (body : Result) : Result :=
  if a.toNat < s.accCount then body else raiseFault .badAsel h s

/-- `LEN` as a 32-bit word, the count that `WRITE` reports (42_accumulator.md R146). -/
def lenWord (data : List Byte) : Word := BitVec.ofNat 32 data.length

end Sys2Proof.Machine
end

