-- ==== Sys2Proof/Machine/Accumulator.lean ====
section
/-! DEFINITION. The streaming accumulator commands (42_accumulator.md). -/

namespace Sys2Proof.Machine

/-- `RESET a` (42_accumulator.md R142). -/
def execReset (a : BitVec 4) (s : State) : Result :=
  withAcc a (Instr.reset a).header s (respond (okResponse []) (accWrite a Config.initValue s))

/-- `WRITE a, data` (42_accumulator.md R146). -/
def execWrite (a : BitVec 4) (data : List Byte) (s : State) : Result :=
  let t := feedW data (loadW (accRead a s) s)
  withAcc a (Instr.write a data).header s
    (respond (okResponse (be32 (lenWord data))) (accWrite a (externalW t) (releaseW t)))

/-- `SUM32 a` (42_accumulator.md R148). -/
def execSum32 (a : BitVec 4) (s : State) : Result :=
  withAcc a (Instr.sum32 a).header s (respond (okResponse (be32 (accRead a s))) s)

/-- `SUM a, prefix` (42_accumulator.md R150). -/
def execSum (a : BitVec 4) (pre : List Byte) (s : State) : Result :=
  withAcc a (Instr.sum a pre).header s (respond (okResponse (pre ++ be32 (accRead a s))) s)

/-- `SIZE` (42_accumulator.md R152). -/
def execSize (s : State) : Result :=
  respond (okResponse (be32 (BitVec.ofNat 32 Config.digestSize))) s

/-- `BSIZE` (42_accumulator.md R154). -/
def execBsize (s : State) : Result :=
  respond (okResponse (be32 (BitVec.ofNat 32 Config.blockSize))) s

end Sys2Proof.Machine
end

