-- ==== Sys2Proof/Machine/Stateless.lean ====
section
/-! DEFINITION. The stateless commands `CHECKSUM` and `UPDATE` (41_crc_update.md) and the table read port `TBLRD`
(40_table_generator.md). -/

namespace Sys2Proof.Machine

/-- `CHECKSUM data` (41_crc_update.md R125). -/
def execChecksum (data : List Byte) (s : State) : Result :=
  let t := feedW data (loadW Config.initValue s)
  respond (okResponse (be32 (externalW t))) (releaseW t)

/-- `UPDATE prior, data` (41_crc_update.md R126). -/
def execUpdate (prior : Word) (data : List Byte) (s : State) : Result :=
  let t := feedW data (loadW prior s)
  respond (okResponse (be32 (externalW t))) (releaseW t)

/-- `TBLRD idx` (40_table_generator.md R105). -/
def execTblrd (idx : Byte) (s : State) : Result :=
  respond (okResponse (be32 (tableOf s.table idx))) s

end Sys2Proof.Machine
end

