-- ==== Sys2Proof/Machine/Dispatch.lean ====
section
/-! DEFINITION. The meaning of each command: one direct call per constructor of `Instr` (30_encoding.md R67). -/

namespace Sys2Proof.Machine

def exec (i : Instr) (s : State) : Host.Outcome State Fault Refusal :=
  match i with
  | .checksum data => Sys2Proof.Machine.execChecksum data s
  | .update prior data => Sys2Proof.Machine.execUpdate prior data s
  | .reset a => Sys2Proof.Machine.execReset a s
  | .write a data => Sys2Proof.Machine.execWrite a data s
  | .sum32 a => Sys2Proof.Machine.execSum32 a s
  | .sum a pre => Sys2Proof.Machine.execSum a pre s
  | .size => Sys2Proof.Machine.execSize s
  | .bsize => Sys2Proof.Machine.execBsize s
  | .tblrd idx => Sys2Proof.Machine.execTblrd idx s

end Sys2Proof.Machine
end

