-- ==== Sys2Proof/Machine/Accept.lean ====
section
/-! DEFINITION. Packet acceptance (30_encoding.md R74): one transition per step, by `PSTATE`. -/

namespace Sys2Proof.Machine

/-! ### Taking bytes -/

/-- The host that the `k`-th choice picks among those that have a byte: no choice where there is one
(20_memory.md R54, 30_encoding.md R74; entry 8). -/
def chooseHost (k : Nat) : List Nat → Option Nat
  | [] => none
  | [h] => some h
  | h :: h' :: rest => (h :: h' :: rest)[Config.arbiter k % (rest.length + 2)]?

/-- The next byte of `OWNER`'s stream, and the state after taking it; none where the stream has no byte yet. -/
def takeByte (s : State) : Option (Byte × State) :=
  match s.owner with
  | none => none
  | some h =>
    match s.cmd.get h with
    | [] => none
    | b :: rest => some (b, { s with cmd := s.cmd.put h rest })

/-! ### Executing the command whose packet has arrived -/

/-- Execute the command that `H`, `PRIOR_BUF` and the payload hold, and return to `IDLE` (30_encoding.md R74, R68). `H`
is legal here in every state a run reaches; an illegal one faults, as where it is decoded (entry 16). -/
def execute (s : State) : Result :=
  match decodeHeader s.accCount s.hdr with
  | .legal op => exec (operands op s.hdr s.priorBuf s.payload) { s with pstate := .idle }
  | .illegal c => raiseFault c s.hdr s

/-! ### The transitions of 30_encoding.md R74 -/

/-- `IDLE`: choose a host that has a byte; with none, hold. -/
def acceptIdle (s : State) : State :=
  match chooseHost s.choices s.cmd.ready with
  | none => s
  | some h => { s with owner := some h, pstate := .hdr, hdrBuf := [], choices := s.choices + 1 }

/-- A whole header `h` has arrived: fault, wait for `PRIOR`, wait for the payload, or execute. -/
def headerArrived (h : Word) (s : State) : Result :=
  match decodeHeader s.accCount h with
  | .illegal c => raiseFault c h s
  | .legal op =>
    match op with
    | .update => .next { s with pstate := .prior, priorBuf := [] }
    | .checksum => .next { s with pstate := .data, remain := immField h, payload := [] }
    | .write => .next { s with pstate := .data, remain := immField h, payload := [] }
    | .sum => .next { s with pstate := .pfx, remain := immField h, payload := [] }
    | .reset => execute s
    | .sum32 => execute s
    | .size => execute s
    | .bsize => execute s
    | .tblrd => execute s

/-- `HDR`: take a byte into `HDR_BUF`; with the fourth, decode. -/
def acceptHdr (s : State) : Result :=
  match takeByte s with
  | none => .next s
  | some (b, t) =>
    match t.hdrBuf ++ [b] with
    | [b0, b1, b2, b3] =>
      headerArrived (be32inv b0 b1 b2 b3) { t with hdrBuf := [b0, b1, b2, b3], hdr := be32inv b0 b1 b2 b3 }
    | buf => .next { t with hdrBuf := buf }

/-- `PRIOR`: take a byte into `PRIOR_BUF`; with the fourth, wait for the payload. -/
def acceptPrior (s : State) : State :=
  match takeByte s with
  | none => s
  | some (b, t) =>
    if (t.priorBuf ++ [b]).length = 4 then
      { t with priorBuf := t.priorBuf ++ [b], pstate := .data, remain := immField t.hdr, payload := [] }
    else { t with priorBuf := t.priorBuf ++ [b] }

/-- `DATA` and `PREFIX`: with nothing remaining, execute; else take a byte into the payload. -/
def acceptPayload (s : State) : Result :=
  if s.remain = 0#24 then execute s
  else
    match takeByte s with
    | none => .next s
    | some (b, t) => .next { t with payload := t.payload ++ [b], remain := t.remain - 1#24 }

/-- One transition of acceptance. -/
def accept (s : State) : Result :=
  match s.pstate with
  | .idle => .next (acceptIdle s)
  | .hdr => acceptHdr s
  | .prior => .next (acceptPrior s)
  | .data => acceptPayload s
  | .pfx => acceptPayload s

/-! ### A packet as seen from outside -/

/-- How many steps of an idle CORE take a whole packet: one to choose the host, one per byte, and one to execute where a
payload is announced (30_encoding.md R74). -/
def packetSteps (i : Instr) : Nat :=
  match i.opcode.immUse with
  | .length => 1 + (encode i).length + 1
  | .index => 1 + (encode i).length
  | .reserved => 1 + (encode i).length

/-- The state in which a command runs when host `h`, chosen by an idle CORE, has sent its packet and then `rest`:
what acceptance has written on the way (30_encoding.md R74). -/
def acceptedState (h : Nat) (i : Instr) (rest : List Byte) (s : State) : State :=
  { s with
    pstate := .idle
    owner := some h
    choices := s.choices + 1
    hdrBuf := be32 i.header
    hdr := i.header
    priorBuf := (match i.opcode with | .update => i.priorBytes | _ => s.priorBuf)
    payload := (match i.opcode.immUse with | .length => i.payload | .index => s.payload | .reserved => s.payload)
    remain := (match i.opcode.immUse with | .length => 0#24 | .index => s.remain | .reserved => s.remain)
    cmd := s.cmd.put h rest }

/-! ### Placing one instruction where the next step runs it -/

/-- Host 0 has sent the packet whose words are the bits of `w` (entry 13). A header that announces a payload has been
read, and so have its `PRIOR` and payload bytes, so that the next step executes; of any other header 3 bytes have been
read, so that the next step reads the fourth, decodes and executes or faults. -/
def placePacket (nbits w : Nat) (s : State) : State :=
  let v := w % 2 ^ nbits
  let h : Word := BitVec.ofNat 32 v
  let t : State :=
    { s with
      faulted := false
      table := if s.tableReady then s.table else builtTable
      tableReady := true
      owner := some 0 }
  let atHeader : State :=
    { t with
      pstate := .hdr
      hdrBuf := [tableByte v 0, tableByte v 1, tableByte v 2]
      cmd := t.cmd.put 0 (tableByte v 3 :: t.cmd.get 0) }
  let atPayload (p : PState) (op : Opcode) : State :=
    { t with
      pstate := p
      hdrBuf := be32 h
      hdr := h
      priorBuf := tableBytes v 4 op.priorLen
      payload := tableBytes v (4 + op.priorLen) (payloadLen op h)
      remain := 0#24 }
  match decodeHeader s.accCount h with
  | .illegal _ => atHeader
  | .legal op =>
    match op with
    | .checksum => atPayload .data op
    | .update => atPayload .data op
    | .write => atPayload .data op
    | .sum => atPayload .pfx op
    | .reset => atHeader
    | .sum32 => atHeader
    | .size => atHeader
    | .bsize => atHeader
    | .tblrd => atHeader

end Sys2Proof.Machine
end

