-- ==== Sys2Proof/Machine/Generator.lean ====
section
/-! DEFINITION. The table generator (40_table_generator.md R101 to R103), bit-serial in `GEN_IDX`, `GEN_BIT` and
`GEN_W`, paced so that it takes `GEN_LATENCY` steps (70_reset_and_hazards.md R193; entry 2). -/

namespace Sys2Proof.Machine

/-- The work value the next bit step starts from: seeded from the index before bit 0 (40_table_generator.md R101). -/
def genValue (s : State) : Word :=
  if s.genBit.val = 0 then seed (BitVec.ofNat 8 s.genIdx.val) else s.genW

/-- One action of `Generate()`: a bit step, or after 8 of them the write of the entry; the last write sets
`TABLE_READY` (40_table_generator.md R101, R102). -/
def genTick (s : State) : State :=
  if s.genIdx.val < Config.tableEntries then
    if s.genBit.val < 8 then
      { s with genW := bitStep (genValue s), genBit := Fin.ofNat 9 (s.genBit.val + 1) }
    else
      { s with
        table := s.table.write s.genIdx.val s.genW
        genIdx := Fin.ofNat 257 (s.genIdx.val + 1)
        genBit := 0
        tableReady := decide (s.genIdx.val + 1 = Config.tableEntries) }
  else { s with tableReady := true }

/-- All that is left of the entry in progress: its remaining bit steps and its write (40_table_generator.md R101). It is
`9 - GEN_BIT` actions at once. -/
def genEntry (s : State) : State :=
  let v := bitSteps (8 - s.genBit.val) (genValue s)
  { s with
    table := s.table.write s.genIdx.val v
    genIdx := Fin.ofNat 257 (s.genIdx.val + 1)
    genBit := 0
    genW := v
    tableReady := decide (s.genIdx.val + 1 = Config.tableEntries) }

/-- `n` entries of `Generate()`. -/
def genEntries : Nat → State → State
  | 0, s => s
  | n + 1, s => genEntries n (genEntry s)

/-- How many entries `Generate()` still has to write; a ROM has none (40_table_generator.md R101). -/
def entriesLeft (s : State) : Nat :=
  match s.tableImpl with
  | .generated => Config.tableEntries - s.genIdx.val
  | .rom => 0

/-- How many actions `Generate()` still has to do: 9 per entry, less those done for the entry in progress. -/
def genWork (s : State) : Nat := 9 * entriesLeft s - s.genBit.val

/-- One step of the generator. In the last of its steps it does every action it still has to do and sets `TABLE_READY`;
before that it does one action a step, after waiting as long as there are more steps than actions
(40_table_generator.md R101: the number of steps is open; entry 2). -/
def genStep (s : State) : State :=
  if s.genLeft ≤ 1 then { genEntries (entriesLeft s) s with tableReady := true, genLeft := 0 }
  else if genWork s < s.genLeft then { s with genLeft := s.genLeft - 1 }
  else genTick { s with genLeft := s.genLeft - 1 }

end Sys2Proof.Machine
end

