-- ==== Sys2Proof/Machine/Transition.lean ====
section
/-! DEFINITION. What the CORE does next: nothing while `FAULTED = 1` (60_exceptions.md R174), the generator while
`TABLE_READY = 0` (70_reset_and_hazards.md R196), else one transition of packet acceptance (30_encoding.md R74). -/

namespace Sys2Proof.Machine

/-- One transition. Where the CORE holds (it is frozen, no host has a byte, or `OWNER`'s next byte has not come) the
state stays (entries 10, 11). -/
def transition (s : State) : Result :=
  if s.faulted then .next s
  else if s.tableReady then accept s
  else .next (genStep s)

end Sys2Proof.Machine
end

