-- ==== Sys2Proof/Machine/Step.lean ====
section
/-! DEFINITION. One step of the CORE, and one instruction placed where the next step runs it. -/

namespace Sys2Proof.Machine

/-- One step: one transition of the CORE (entry 10). -/
def step (s : State) : Host.Outcome State Fault Refusal := transition s

/-- `s` with one instruction placed where the next step runs it (entry 13). -/
def State.withFetchWord (s : State) (nbits w : Nat) : State := placePacket nbits w s

end Sys2Proof.Machine
end

