-- ==== Sys2Proof/Machine/Asm.lean ====
section
/-! DEFINITION. The assembler of 30_encoding.md R78 and its pseudo-instructions (R79). The lexical points R78 leaves
open are entry 21. -/

namespace Sys2Proof.Machine

/-- One line of a command program (30_encoding.md R78, R79), its numbers not yet checked. -/
inductive AsmLine where
  | checksum (data : List Byte)
  | update (prior : Nat) (data : List Byte)
  | reset (a : Nat)
  | write (a : Nat) (data : List Byte)
  | sum32 (a : Nat)
  | sum (a : Nat) (pre : List Byte)
  | size
  | bsize
  | tblrd (idx : Nat)
  | new (a : Nat)
  | lwrite (a : Nat) (data : List Byte)
  deriving DecidableEq, Repr

/-- The first `k` pieces of `data`, each of `m` bytes as long as there are that many. -/
def piecesOf (m : Nat) : Nat → List Byte → List (List Byte)
  | 0, _ => []
  | k + 1, data => data.take m :: piecesOf m k (data.drop m)

/-- How many chunks `LWRITE` makes with chunks of `m` bytes: `max(1, ceil(len / m))` (30_encoding.md R79). -/
def chunkCount (m : Nat) (data : List Byte) : Nat := max 1 ((data.length + (m - 1)) / m)

/-- `chunk_1` to `chunk_k` of `LWRITE` with chunks of `m` bytes (30_encoding.md R79). -/
def chunksOf (m : Nat) (data : List Byte) : List (List Byte) := piecesOf m (chunkCount m data) data

/-- The accumulator operand: an error above 15 (30_encoding.md R78). -/
def asmAcc (a : Nat) : Option (BitVec 4) := if a ≤ 15 then some (BitVec.ofNat 4 a) else none

/-- The data operand of one packet: an error above `LEN_MAX` bytes (30_encoding.md R78). -/
def asmData (data : List Byte) : Option (List Byte) := if data.length ≤ Config.lenMax then some data else none

/-- The commands of a line, or an assembly error (30_encoding.md R78); `NEW` and `LWRITE` expand (R79). -/
def assemble : AsmLine → Option (List Instr)
  | .checksum data => (asmData data).map (fun d => [.checksum d])
  | .update prior data =>
    if prior < 2 ^ 32 then (asmData data).map (fun d => [.update (BitVec.ofNat 32 prior) d]) else none
  | .reset a => (asmAcc a).map (fun b => [.reset b])
  | .write a data => (asmAcc a).bind (fun b => (asmData data).map (fun d => [.write b d]))
  | .sum32 a => (asmAcc a).map (fun b => [.sum32 b])
  | .sum a pre => (asmAcc a).bind (fun b => (asmData pre).map (fun d => [.sum b d]))
  | .size => some [.size]
  | .bsize => some [.bsize]
  | .tblrd idx => if idx ≤ 255 then some [.tblrd (BitVec.ofNat 8 idx)] else none
  | .new a => (asmAcc a).map (fun b => [.reset b])
  | .lwrite a data => (asmAcc a).map (fun b => (chunksOf Config.lenMax data).map (fun d => .write b d))

/-- The packet bytes of a line (30_encoding.md R60, R78). -/
def assembleBytes (l : AsmLine) : Option (List Byte) :=
  (assemble l).map (fun is => (is.map encode).flatten)

/-! ### The text of a line -/

/-- Skip spaces and tabs (entry 21). -/
def skipBlank : List Char → List Char
  | [] => []
  | c :: cs => if c = ' ' ∨ c = '\t' then skipBlank cs else c :: cs

/-- The letters and digits at the front of a text, and what follows. -/
def lexWord : List Char → List Char × List Char
  | [] => ([], [])
  | c :: cs => if c.isAlphanum then (c :: (lexWord cs).1, (lexWord cs).2) else ([], c :: cs)

/-- The value of a digit in the given base, in either case (entry 21). -/
def digitValue (base : Nat) (c : Char) : Option Nat :=
  let n := c.toNat
  let v :=
    if 48 ≤ n ∧ n ≤ 57 then n - 48
    else if 65 ≤ n ∧ n ≤ 70 then n - 55
    else if 97 ≤ n ∧ n ≤ 102 then n - 87
    else base
  if v < base then some v else none

/-- The value of a run of digits. -/
def digitsValue (base : Nat) : Nat → List Char → Option Nat
  | acc, [] => some acc
  | acc, c :: cs => (digitValue base c).bind (fun d => digitsValue base (acc * base + d) cs)

/-- A number. DESIGN CHOICE (entry 21): `a`, `prior`, `idx` and data bytes alike are decimal digits, or `0x` and any
count of hexadecimal digits from one up, leading zeros allowed in both; 30_encoding.md R78 says hex `0xNN` or decimal for
the bytes of `data` only. -/
def numberValue : List Char → Option Nat
  | [] => none
  | '0' :: 'x' :: c :: cs => digitsValue 16 0 (c :: cs)
  | c :: cs => digitsValue 10 0 (c :: cs)

/-- A number at the front of a text. -/
def lexNumber (cs : List Char) : Option (Nat × List Char) :=
  let w := lexWord (skipBlank cs)
  (numberValue w.1).map (fun n => (n, w.2))

/-- The given mark at the front of a text. -/
def lexMark (m : Char) (cs : List Char) : Option (List Char) :=
  match skipBlank cs with
  | [] => none
  | c :: rest => if c = m then some rest else none

/-- The double quote. -/
def quoteMark : Char := Char.ofNat 34

/-- The ASCII bytes up to the closing quote (00_scope.md R16, 30_encoding.md R78). -/
def lexAscii : List Char → Option (List Byte × List Char)
  | [] => none
  | c :: cs =>
    if c = quoteMark then some ([], cs)
    else if c.toNat < 128 then (lexAscii cs).map (fun r => (BitVec.ofNat 8 c.toNat :: r.1, r.2))
    else none

/-- One byte of a bracketed list. DESIGN CHOICE (entry 21): an error above 255, which 30_encoding.md R78 does not list. -/
def lexByte (cs : List Char) : Option (Byte × List Char) :=
  (lexNumber cs).bind (fun r => if r.1 ≤ 255 then some (BitVec.ofNat 8 r.1, r.2) else none)

/-- The bytes of a bracketed list after its first, up to the closing bracket; `fuel` bounds their number. -/
def lexMoreBytes : Nat → List Char → Option (List Byte × List Char)
  | 0, _ => none
  | fuel + 1, cs =>
    match lexMark ']' cs with
    | some rest => some ([], rest)
    | none =>
      (lexMark ',' cs).bind (fun r =>
        (lexByte r).bind (fun b => (lexMoreBytes fuel b.2).map (fun t => (b.1 :: t.1, t.2))))

/-- A data operand: `"ascii"` or `[b0, b1, ...]` (30_encoding.md R78). -/
def lexData (cs : List Char) : Option (List Byte × List Char) :=
  match skipBlank cs with
  | [] => none
  | c :: rest =>
    if c = quoteMark then lexAscii rest
    else if c = '[' then
      match lexMark ']' rest with
      | some after => some ([], after)
      | none =>
        (lexByte rest).bind (fun b =>
          (lexMoreBytes (rest.length + 1) b.2).map (fun t => (b.1 :: t.1, t.2)))
    else none

/-- Nothing follows but blanks and a comment (30_encoding.md R78: `;` starts a comment). -/
def lexEnd (cs : List Char) : Bool :=
  match skipBlank cs with
  | [] => true
  | c :: _ => c == ';'

/-- A line without operands. -/
def lineOf0 (l : AsmLine) (cs : List Char) : Option AsmLine := if lexEnd cs then some l else none

/-- A line with one number. -/
def lineOfNumber (f : Nat → AsmLine) (cs : List Char) : Option AsmLine :=
  (lexNumber cs).bind (fun r => lineOf0 (f r.1) r.2)

/-- A line with one data operand. -/
def lineOfData (f : List Byte → AsmLine) (cs : List Char) : Option AsmLine :=
  (lexData cs).bind (fun r => lineOf0 (f r.1) r.2)

/-- A line with a number, a comma and a data operand. -/
def lineOfNumberData (f : Nat → List Byte → AsmLine) (cs : List Char) : Option AsmLine :=
  (lexNumber cs).bind (fun r => (lexMark ',' r.2).bind (lineOfData (f r.1)))

/-- One line of text (30_encoding.md R78); none is an assembly error. -/
def parseLine (cs : List Char) : Option AsmLine :=
  let w := lexWord (skipBlank cs)
  if w.1 = ['C', 'H', 'E', 'C', 'K', 'S', 'U', 'M'] then lineOfData .checksum w.2
  else if w.1 = ['U', 'P', 'D', 'A', 'T', 'E'] then lineOfNumberData .update w.2
  else if w.1 = ['R', 'E', 'S', 'E', 'T'] then lineOfNumber .reset w.2
  else if w.1 = ['W', 'R', 'I', 'T', 'E'] then lineOfNumberData .write w.2
  else if w.1 = ['S', 'U', 'M', '3', '2'] then lineOfNumber .sum32 w.2
  else if w.1 = ['S', 'U', 'M'] then lineOfNumberData .sum w.2
  else if w.1 = ['S', 'I', 'Z', 'E'] then lineOf0 .size w.2
  else if w.1 = ['B', 'S', 'I', 'Z', 'E'] then lineOf0 .bsize w.2
  else if w.1 = ['T', 'B', 'L', 'R', 'D'] then lineOfNumber .tblrd w.2
  else if w.1 = ['N', 'E', 'W'] then lineOfNumber .new w.2
  else if w.1 = ['L', 'W', 'R', 'I', 'T', 'E'] then lineOfNumberData .lwrite w.2
  else none

/-- The packet bytes of one line of text; a line of blanks and comment has none (30_encoding.md R78). -/
def assembleText (cs : List Char) : Option (List Byte) :=
  if lexEnd cs then some [] else (parseLine cs).bind assembleBytes

end Sys2Proof.Machine
end

