-- ==== Sys2Proof/Machine/HostPort.lean ====
section
/-! DEFINITION. What the outside world does to the CORE (00_scope.md R8, 70_reset_and_hazards.md R199), between two
steps (entry 9), runs of such events, and programs at the operation level (00_scope.md R7). -/

namespace Sys2Proof.Machine

/-- What can happen next: the CORE takes a step, host `h` sends bytes (30_encoding.md R60), host `h` takes `n` bytes of
its responses (10_state.md R32), or hardware reset strikes (70_reset_and_hazards.md R190). -/
inductive HostEvent where
  | tick
  | send (h : Nat) (bytes : List Byte)
  | take (h n : Nat)
  | hardwareReset
  deriving DecidableEq, Repr

/-- Host `h` sends bytes: they join the end of its command stream (10_state.md R27). -/
def hostSend (h : Nat) (bytes : List Byte) (s : State) : State := { s with cmd := s.cmd.append h bytes }

/-- Host `h` takes `n` bytes from the front of its response stream (10_state.md R32). -/
def hostTake (h n : Nat) (s : State) : State := { s with resp := s.resp.drop h n }

/-- One event. -/
def applyEvent (e : HostEvent) (s : State) : Result :=
  match e with
  | .tick => step s
  | .send h bytes => .next (hostSend h bytes s)
  | .take h n => .next (hostTake h n s)
  | .hardwareReset => .next (Sys2Proof.Machine.hardwareReset s)

/-- Events in order, stopping at the first fault or refusal. -/
def runEvents : List HostEvent → State → Result
  | [], s => .next s
  | e :: es, s =>
    match applyEvent e s with
    | .next t => runEvents es t
    | .fault f => .fault f
    | .refused r => .refused r

/-- `n` steps of the CORE with nothing arriving between them, stopping at the first fault or refusal. -/
def runSteps : Nat → State → Result
  | 0, s => .next s
  | n + 1, s =>
    match step s with
    | .next t => runSteps n t
    | .fault f => .fault f
    | .refused r => .refused r

/-- Commands at the operation level, each of the host named with it, in acceptance order (00_scope.md R7,
20_memory.md R53). -/
def execAll : List (Nat × Instr) → State → Result
  | [], s => .next s
  | (h, i) :: rest, s =>
    match exec i { s with owner := some h } with
    | .next t => execAll rest t
    | .fault f => .fault f
    | .refused r => .refused r

/-- The bytes accumulator `a` holds the checksum of after one more command: `RESET` clears them and `WRITE` adds its
payload (10_state.md R23). -/
def contentAfter (a : BitVec 4) (content : List Byte) (i : Instr) : List Byte :=
  match i with
  | .checksum _ => content
  | .update _ _ => content
  | .reset b => if b = a then [] else content
  | .write b data => if b = a then content ++ data else content
  | .sum32 _ => content
  | .sum _ _ => content
  | .size => content
  | .bsize => content
  | .tblrd _ => content

/-- `s_a` of 10_state.md R23 after the commands of a program. -/
def contentOf (a : BitVec 4) (content : List Byte) (cmds : List (Nat × Instr)) : List Byte :=
  cmds.foldl (fun c hi => contentAfter a c hi.2) content

end Sys2Proof.Machine
end

