-- ==== Sys2Proof/Safety.lean ====
section
/-! DEFINITION. The invariant of the CORE, when a run has ended well, has failed or is stalled
(70_reset_and_hazards.md R201, 60_exceptions.md R174), and what it means that the table is built. -/

namespace Sys2Proof.Machine

/-- Every entry of the table is `TableEntry(i)` (40_table_generator.md R102). -/
def State.TableBuilt (s : State) : Prop := ∀ i : Byte, tableOf s.table i = tableEntry i

/-- The response to each command as 30_encoding.md R77 tabulates it, on a CORE with the finished table. The meanings do
not use it; that they respond so is a statement about them. -/
def expectedResponse (i : Instr) (s : State) : List Byte :=
  match i with
  | .checksum data => 0x00#8 :: be32 (crcChecksum data)
  | .update prior data => 0x00#8 :: be32 (crcUpdate prior data)
  | .reset _ => [0x00#8]
  | .write _ data => 0x00#8 :: be32 (BitVec.ofNat 32 data.length)
  | .sum32 a => 0x00#8 :: be32 (accRead a s)
  | .sum a pre => 0x00#8 :: (pre ++ be32 (accRead a s))
  | .size => 0x00#8 :: be32 4#32
  | .bsize => 0x00#8 :: be32 1#32
  | .tblrd idx => 0x00#8 :: be32 (tableEntry idx)

/-- The CORE may accept a packet: `FAULTED = 0` and `TABLE_READY = 1` (30_encoding.md R74). -/
def State.Accepting (s : State) : Prop := s.faulted = false ∧ s.tableReady = true

/-- While the generator runs: with a ROM every entry stands; else the entries below `GEN_IDX` are written and no other,
and `GEN_W` is the work value of the entry in progress (40_table_generator.md R101). No byte has been accepted
(70_reset_and_hazards.md R196). -/
def State.GenOk (s : State) : Prop :=
  s.pstate = .idle ∧ s.faulted = false ∧
    match s.tableImpl with
    | .rom => s.table = builtTable
    | .generated =>
      s.genIdx.val < Config.tableEntries ∧ s.table = entriesFrom 0 s.genIdx.val ∧
        (0 < s.genBit.val → s.genW = bitSteps s.genBit.val (seed (BitVec.ofNat 8 s.genIdx.val)))

/-- What the packet parser holds in each `PSTATE` (10_state.md R28, 30_encoding.md R74). -/
def State.ParserOk (s : State) : Prop :=
  s.hdrBuf.length ≤ 4 ∧ s.priorBuf.length ≤ 4 ∧
    match s.pstate with
    | .idle => True
    | .hdr => s.owner.isSome = true ∧ s.hdrBuf.length < 4
    | .prior =>
      s.owner.isSome = true ∧ s.hdrBuf = be32 s.hdr ∧ decodeHeader s.accCount s.hdr = .legal .update ∧
        s.priorBuf.length < 4
    | .data =>
      s.owner.isSome = true ∧ s.hdrBuf = be32 s.hdr ∧
        (decodeHeader s.accCount s.hdr = .legal .checksum ∨ decodeHeader s.accCount s.hdr = .legal .write ∨
          (decodeHeader s.accCount s.hdr = .legal .update ∧ s.priorBuf.length = 4)) ∧
        s.payload.length + s.remain.toNat = (immField s.hdr).toNat
    | .pfx =>
      s.owner.isSome = true ∧ s.hdrBuf = be32 s.hdr ∧ decodeHeader s.accCount s.hdr = .legal .sum ∧
        s.payload.length + s.remain.toNat = (immField s.hdr).toNat

/-- The fault registers: clear, or the cause and the illegal header of the fault taken
(10_state.md R31, 60_exceptions.md R172, R173). -/
def State.FaultOk (s : State) : Prop :=
  match s.faulted with
  | false => s.faultCause = 0#8 ∧ s.faultHdr = 0#32
  | true =>
    s.pstate = .idle ∧
      ∃ c : Cause, decodeHeader s.accCount s.faultHdr = .illegal c ∧ s.faultCause = c.code

/-- The invariant of the CORE. -/
structure State.Inv (s : State) : Prop where
  accCount_pos : 1 ≤ s.accCount
  accCount_le : s.accCount ≤ Config.accMax
  table_wf : s.table.wf = true
  table_built : s.tableReady = true → s.table = builtTable
  gen_ok : s.tableReady = false → s.GenOk
  parser_ok : s.ParserOk
  fault_ok : s.FaultOk
  cmd_wf : s.cmd.wf = true
  resp_wf : s.resp.wf = true

/-- A run has ended successfully (70_reset_and_hazards.md R201). -/
def State.RunEnded (s : State) : Prop :=
  s.cmd = [] ∧ s.pstate = .idle ∧ s.tableReady = true ∧ s.faulted = false

/-- A run has failed: the CORE is frozen (60_exceptions.md R174, R201). -/
def State.RunFailed (s : State) : Prop := s.faulted = true

/-- The CORE waits in the middle of a packet for a byte that has not come (30_encoding.md R74, 93 U7). -/
def State.Stalled (s : State) : Prop :=
  s.Accepting ∧ s.pstate ≠ .idle ∧ takeByte s = none ∧
    (s.pstate = .data ∨ s.pstate = .pfx → s.remain ≠ 0#24)

end Sys2Proof.Machine
end

