-- ==== Sys2Proof/Certificates/Slice0/Obligations.lean ====
section
/-! DEFINITION. The statements about the CORE, from the numbered rules of the spec. A statement about every state holds
for every `ACC_COUNT`, `GEN_LATENCY` and `TABLE_IMPL`, since the state holds them, and for every order in which hosts are
chosen, since the choice is a free value. -/

open Sys2Proof
open Sys2Proof.Machine

/-! ### The table and the datapath as functions -/

/-- 40_table_generator.md R100: the entry is 8 bit steps of the seeded index; its corner cases and its example. -/
def Obligations.TableEntryIsEightBitSteps : Prop :=
  (∀ i : Byte, tableEntry i =
    bitStep (bitStep (bitStep (bitStep (bitStep (bitStep (bitStep (bitStep (i.setWidth 32 <<< 24))))))))) ∧
  (∀ w : Word, bitStep w = if w.getLsbD 31 = true then (w <<< 1) ^^^ 0x04C11DB7#32 else w <<< 1) ∧
  tableEntry 0x00#8 = 0x00000000#32 ∧ tableEntry 0x01#8 = 0x04C11DB7#32 ∧ tableEntry 0xFF#8 = 0xB1F740B4#32 ∧
  tableEntry 0x80#8 = 0x690CE0EE#32

/-- 40_table_generator.md R104: the zero, polynomial, linearity, sum and injectivity laws of the table. -/
def Obligations.TableLaws : Prop :=
  tableEntry 0#8 = 0#32 ∧
  tableEntry 1#8 = 0x04C11DB7#32 ∧
  (∀ i j : Byte, tableEntry (i ^^^ j) = tableEntry i ^^^ tableEntry j) ∧
  (builtTable.foldl (fun x e => x ^^^ e.2) 0#32) = 0#32 ∧
  (∀ b : Byte, ∃ i : Byte, (tableEntry i).extractLsb' 24 8 = b ∧
    ∀ j : Byte, (tableEntry j).extractLsb' 24 8 = b → j = i)

/-- Rows 0x00 to 0x38 of the table of 40_table_generator.md R106. -/
def Sys2Proof.Machine.listedTable0 : List Word :=
  [0x00000000#32, 0x04C11DB7#32, 0x09823B6E#32, 0x0D4326D9#32, 0x130476DC#32, 0x17C56B6B#32, 0x1A864DB2#32, 0x1E475005#32,
   0x2608EDB8#32, 0x22C9F00F#32, 0x2F8AD6D6#32, 0x2B4BCB61#32, 0x350C9B64#32, 0x31CD86D3#32, 0x3C8EA00A#32, 0x384FBDBD#32,
   0x4C11DB70#32, 0x48D0C6C7#32, 0x4593E01E#32, 0x4152FDA9#32, 0x5F15ADAC#32, 0x5BD4B01B#32, 0x569796C2#32, 0x52568B75#32,
   0x6A1936C8#32, 0x6ED82B7F#32, 0x639B0DA6#32, 0x675A1011#32, 0x791D4014#32, 0x7DDC5DA3#32, 0x709F7B7A#32, 0x745E66CD#32,
   0x9823B6E0#32, 0x9CE2AB57#32, 0x91A18D8E#32, 0x95609039#32, 0x8B27C03C#32, 0x8FE6DD8B#32, 0x82A5FB52#32, 0x8664E6E5#32,
   0xBE2B5B58#32, 0xBAEA46EF#32, 0xB7A96036#32, 0xB3687D81#32, 0xAD2F2D84#32, 0xA9EE3033#32, 0xA4AD16EA#32, 0xA06C0B5D#32,
   0xD4326D90#32, 0xD0F37027#32, 0xDDB056FE#32, 0xD9714B49#32, 0xC7361B4C#32, 0xC3F706FB#32, 0xCEB42022#32, 0xCA753D95#32,
   0xF23A8028#32, 0xF6FB9D9F#32, 0xFBB8BB46#32, 0xFF79A6F1#32, 0xE13EF6F4#32, 0xE5FFEB43#32, 0xE8BCCD9A#32, 0xEC7DD02D#32]

/-- Rows 0x40 to 0x78 of the table of 40_table_generator.md R106. -/
def Sys2Proof.Machine.listedTable1 : List Word :=
  [0x34867077#32, 0x30476DC0#32, 0x3D044B19#32, 0x39C556AE#32, 0x278206AB#32, 0x23431B1C#32, 0x2E003DC5#32, 0x2AC12072#32,
   0x128E9DCF#32, 0x164F8078#32, 0x1B0CA6A1#32, 0x1FCDBB16#32, 0x018AEB13#32, 0x054BF6A4#32, 0x0808D07D#32, 0x0CC9CDCA#32,
   0x7897AB07#32, 0x7C56B6B0#32, 0x71159069#32, 0x75D48DDE#32, 0x6B93DDDB#32, 0x6F52C06C#32, 0x6211E6B5#32, 0x66D0FB02#32,
   0x5E9F46BF#32, 0x5A5E5B08#32, 0x571D7DD1#32, 0x53DC6066#32, 0x4D9B3063#32, 0x495A2DD4#32, 0x44190B0D#32, 0x40D816BA#32,
   0xACA5C697#32, 0xA864DB20#32, 0xA527FDF9#32, 0xA1E6E04E#32, 0xBFA1B04B#32, 0xBB60ADFC#32, 0xB6238B25#32, 0xB2E29692#32,
   0x8AAD2B2F#32, 0x8E6C3698#32, 0x832F1041#32, 0x87EE0DF6#32, 0x99A95DF3#32, 0x9D684044#32, 0x902B669D#32, 0x94EA7B2A#32,
   0xE0B41DE7#32, 0xE4750050#32, 0xE9362689#32, 0xEDF73B3E#32, 0xF3B06B3B#32, 0xF771768C#32, 0xFA325055#32, 0xFEF34DE2#32,
   0xC6BCF05F#32, 0xC27DEDE8#32, 0xCF3ECB31#32, 0xCBFFD686#32, 0xD5B88683#32, 0xD1799B34#32, 0xDC3ABDED#32, 0xD8FBA05A#32]

/-- Rows 0x80 to 0xB8 of the table of 40_table_generator.md R106. -/
def Sys2Proof.Machine.listedTable2 : List Word :=
  [0x690CE0EE#32, 0x6DCDFD59#32, 0x608EDB80#32, 0x644FC637#32, 0x7A089632#32, 0x7EC98B85#32, 0x738AAD5C#32, 0x774BB0EB#32,
   0x4F040D56#32, 0x4BC510E1#32, 0x46863638#32, 0x42472B8F#32, 0x5C007B8A#32, 0x58C1663D#32, 0x558240E4#32, 0x51435D53#32,
   0x251D3B9E#32, 0x21DC2629#32, 0x2C9F00F0#32, 0x285E1D47#32, 0x36194D42#32, 0x32D850F5#32, 0x3F9B762C#32, 0x3B5A6B9B#32,
   0x0315D626#32, 0x07D4CB91#32, 0x0A97ED48#32, 0x0E56F0FF#32, 0x1011A0FA#32, 0x14D0BD4D#32, 0x19939B94#32, 0x1D528623#32,
   0xF12F560E#32, 0xF5EE4BB9#32, 0xF8AD6D60#32, 0xFC6C70D7#32, 0xE22B20D2#32, 0xE6EA3D65#32, 0xEBA91BBC#32, 0xEF68060B#32,
   0xD727BBB6#32, 0xD3E6A601#32, 0xDEA580D8#32, 0xDA649D6F#32, 0xC423CD6A#32, 0xC0E2D0DD#32, 0xCDA1F604#32, 0xC960EBB3#32,
   0xBD3E8D7E#32, 0xB9FF90C9#32, 0xB4BCB610#32, 0xB07DABA7#32, 0xAE3AFBA2#32, 0xAAFBE615#32, 0xA7B8C0CC#32, 0xA379DD7B#32,
   0x9B3660C6#32, 0x9FF77D71#32, 0x92B45BA8#32, 0x9675461F#32, 0x8832161A#32, 0x8CF30BAD#32, 0x81B02D74#32, 0x857130C3#32]

/-- Rows 0xC0 to 0xF8 of the table of 40_table_generator.md R106. -/
def Sys2Proof.Machine.listedTable3 : List Word :=
  [0x5D8A9099#32, 0x594B8D2E#32, 0x5408ABF7#32, 0x50C9B640#32, 0x4E8EE645#32, 0x4A4FFBF2#32, 0x470CDD2B#32, 0x43CDC09C#32,
   0x7B827D21#32, 0x7F436096#32, 0x7200464F#32, 0x76C15BF8#32, 0x68860BFD#32, 0x6C47164A#32, 0x61043093#32, 0x65C52D24#32,
   0x119B4BE9#32, 0x155A565E#32, 0x18197087#32, 0x1CD86D30#32, 0x029F3D35#32, 0x065E2082#32, 0x0B1D065B#32, 0x0FDC1BEC#32,
   0x3793A651#32, 0x3352BBE6#32, 0x3E119D3F#32, 0x3AD08088#32, 0x2497D08D#32, 0x2056CD3A#32, 0x2D15EBE3#32, 0x29D4F654#32,
   0xC5A92679#32, 0xC1683BCE#32, 0xCC2B1D17#32, 0xC8EA00A0#32, 0xD6AD50A5#32, 0xD26C4D12#32, 0xDF2F6BCB#32, 0xDBEE767C#32,
   0xE3A1CBC1#32, 0xE760D676#32, 0xEA23F0AF#32, 0xEEE2ED18#32, 0xF0A5BD1D#32, 0xF464A0AA#32, 0xF9278673#32, 0xFDE69BC4#32,
   0x89B8FD09#32, 0x8D79E0BE#32, 0x803AC667#32, 0x84FBDBD0#32, 0x9ABC8BD5#32, 0x9E7D9662#32, 0x933EB0BB#32, 0x97FFAD0C#32,
   0xAFB010B1#32, 0xAB710D06#32, 0xA6322BDF#32, 0xA2F33668#32, 0xBCB4666D#32, 0xB8757BDA#32, 0xB5365D03#32, 0xB1F740B4#32]

/-- 40_table_generator.md R106: the finished table, entry by entry in index order, is the listed one. -/
def Obligations.FinishedTableIsTheListedOne : Prop :=
  builtTable.map Prod.fst = List.range 256 ∧
  builtTable.map Prod.snd = listedTable0 ++ listedTable1 ++ listedTable2 ++ listedTable3

/-- 41_crc_update.md R120: one step of the datapath, its corner cases and its example. -/
def Obligations.DatapathStep : Prop :=
  (∀ (w : Word) (b : Byte), crcStep w b = tableEntry (w.extractLsb' 24 8 ^^^ b) ^^^ (w <<< 8)) ∧
  (∀ b : Byte, crcStep 0#32 b = tableEntry b) ∧
  (∀ w : Word, crcStep w (w.extractLsb' 24 8) = w <<< 8) ∧
  crcStep 0#32 0#8 = 0#32 ∧ crcStep 0xFFFFFFFF#32 0xFF#8 = 0xFFFFFF00#32 ∧
  crcStep 0x12345678#32 0x9A#8 = 0x7B527556#32

/-- 41_crc_update.md R123: the result does not depend on how the bytes are split. -/
def Obligations.ChunkingLaw : Prop :=
  ∀ (v : Word) (s1 s2 : List Byte), crcUpdate (crcUpdate v s1) s2 = crcUpdate v (s1 ++ s2)

/-- 41_crc_update.md R124: the table-driven step is 8 bit steps of the division, and `Update` is the bit-by-bit
division of the message with the register preset to the complement and the result complemented. -/
def Obligations.BitSerialEquivalence : Prop :=
  (∀ (w : Word) (b : Byte), crcStep w b = bitDiv (w ^^^ (b.setWidth 32 <<< 24))) ∧
  ∀ (val : Word) (s : List Byte),
    crcUpdate val s = ~~~(s.foldl (fun (r : Word) (b : Byte) => bitDiv (r ^^^ (b.setWidth 32 <<< 24))) (~~~val))

/-- 41_crc_update.md R127: a message followed by its own big-endian CRC has a constant checksum; the internal value is
then `0xC704DD7B`. -/
def Obligations.ResidueLaw : Prop :=
  ∀ s : List Byte,
    crcChecksum (s ++ be32 (crcChecksum s)) = 0x38FB2284#32 ∧
    feedWith tableEntry (~~~0#32) (s ++ be32 (crcChecksum s)) = 0xC704DD7B#32

/-- 41_crc_update.md R128: the empty input is the identity, the empty checksum is 0, and zero bytes keep
`0xFFFFFFFF`. -/
def Obligations.IdentityCases : Prop :=
  (∀ v : Word, crcUpdate v [] = v) ∧
  crcChecksum [] = 0#32 ∧
  ∀ s : List Byte, (∀ b ∈ s, b = 0#8) → crcUpdate 0xFFFFFFFF#32 s = 0xFFFFFFFF#32

/-- 00_scope.md R13: the big-endian bytes of a word, and their inverse. -/
def Obligations.BigEndianRoundTrip : Prop :=
  (∀ v : Word, be32 v =
    [v.extractLsb' 24 8, v.extractLsb' 16 8, v.extractLsb' 8 8, v.extractLsb' 0 8]) ∧
  (∀ b0 b1 b2 b3 : Byte, be32inv b0 b1 b2 b3 =
    (b0.setWidth 32 <<< 24) ^^^ (b1.setWidth 32 <<< 16) ^^^ (b2.setWidth 32 <<< 8) ^^^ b3.setWidth 32) ∧
  (∀ b0 b1 b2 b3 : Byte, be32 (be32inv b0 b1 b2 b3) = [b0, b1, b2, b3]) ∧
  (∀ v : Word, beWord (be32 v) = v)

/-! ### Encoding and decoding -/

/-- Decoding an encoded legal command gives it back, with every operand, and the bytes after its packet. -/
def Obligations.DecodeOfEncode : Prop :=
  ∀ (n : Nat) (i : Instr) (rest : List Byte), i.wf n = true → decode n (encode i ++ rest) = .command i rest

/-- Bytes that decode to a command are the packet of that command, and the command is legal. -/
def Obligations.EncodeOfDecode : Prop :=
  ∀ (n : Nat) (bytes : List Byte) (i : Instr) (rest : List Byte),
    decode n bytes = .command i rest → bytes = encode i ++ rest ∧ i.wf n = true

/-- 30_encoding.md R72, the table: a header is legal exactly when it matches a row and passes the `ASEL` check. -/
def Obligations.DecoderIsTheMatchMaskTable : Prop :=
  ∀ (n : Nat) (h : Word) (op : Opcode),
    decodeHeader n h = .legal op ↔
      ∃ r ∈ headerRows, r.op = op ∧ h &&& r.mask = r.bits ∧
        (opcField h = 0x3#4 ∨ opcField h = 0x4#4 ∨ opcField h = 0x5#4 ∨ opcField h = 0x6#4 →
          (aselField h).toNat < n)

/-- 30_encoding.md R69 to R71, 60_exceptions.md R175: the three checks, in their order. -/
def Obligations.DecodeChecksInOrder : Prop :=
  ∀ (n : Nat) (h : Word),
    let opc := opcField h
    let reservedOpc := opc = 0x0#4 ∨ 0xA#4 ≤ opc
    let reservedField :=
      (opc ∈ [0x1#4, 0x2#4, 0x7#4, 0x8#4, 0x9#4] ∧ aselField h ≠ 0#4) ∨
      (opc ∈ [0x3#4, 0x5#4, 0x7#4, 0x8#4] ∧ immField h ≠ 0#24) ∨
      (opc = 0x9#4 ∧ h.extractLsb' 8 16 ≠ 0#16)
    let badAsel := opc ∈ [0x3#4, 0x4#4, 0x5#4, 0x6#4] ∧ n ≤ (aselField h).toNat
    (reservedOpc → decodeHeader n h = .illegal .illegalOpcode) ∧
    (¬ reservedOpc → reservedField → decodeHeader n h = .illegal .reservedNonzero) ∧
    (¬ reservedOpc → ¬ reservedField → badAsel → decodeHeader n h = .illegal .badAsel) ∧
    (¬ reservedOpc → ¬ reservedField → ¬ badAsel →
      ∃ op : Opcode, op.code = opc ∧ decodeHeader n h = .legal op)

/-- 30_encoding.md R73: the length of a packet is known from its header. -/
def Obligations.PacketLengths : Prop :=
  (∀ (n : Nat) (i : Instr), i.wf n = true →
    (encode i).length =
      match i.opcode with
      | .reset => 4
      | .sum32 => 4
      | .size => 4
      | .bsize => 4
      | .tblrd => 4
      | .checksum => 4 + (immField i.header).toNat
      | .write => 4 + (immField i.header).toNat
      | .sum => 4 + (immField i.header).toNat
      | .update => 8 + (immField i.header).toNat) ∧
  ∀ (n : Nat) (b0 b1 b2 b3 : Byte) (rest : List Byte) (c : Cause),
    decodeHeader n (be32inv b0 b1 b2 b3) = .illegal c →
      decode n (b0 :: b1 :: b2 :: b3 :: rest) = .illegal c (be32inv b0 b1 b2 b3) rest

/-- 30_encoding.md R81: the worked packets, each the encoding of its line, and each decoding to it. -/
def Obligations.WorkedPackets : Prop :=
  ∀ p ∈ ([
    (.checksum [0x31#8, 0x32#8, 0x33#8, 0x34#8, 0x35#8, 0x36#8, 0x37#8, 0x38#8, 0x39#8],
      [0x10#8, 0x00#8, 0x00#8, 0x09#8, 0x31#8, 0x32#8, 0x33#8, 0x34#8, 0x35#8, 0x36#8, 0x37#8, 0x38#8, 0x39#8]),
    (.update 0xC013A195#32 [0x33#8, 0x34#8],
      [0x20#8, 0x00#8, 0x00#8, 0x02#8, 0xC0#8, 0x13#8, 0xA1#8, 0x95#8, 0x33#8, 0x34#8]),
    (.reset 1#4, [0x31#8, 0x00#8, 0x00#8, 0x00#8]),
    (.write 0#4 [0x61#8, 0x62#8, 0x63#8], [0x40#8, 0x00#8, 0x00#8, 0x03#8, 0x61#8, 0x62#8, 0x63#8]),
    (.sum32 0#4, [0x50#8, 0x00#8, 0x00#8, 0x00#8]),
    (.sum 0#4 [0xAA#8, 0xBB#8], [0x60#8, 0x00#8, 0x00#8, 0x02#8, 0xAA#8, 0xBB#8]),
    (.size, [0x70#8, 0x00#8, 0x00#8, 0x00#8]),
    (.bsize, [0x80#8, 0x00#8, 0x00#8, 0x00#8]),
    (.tblrd 1#8, [0x90#8, 0x00#8, 0x00#8, 0x01#8])] : List (Instr × List Byte)),
    encode p.1 = p.2 ∧ decode 2 p.2 = .command p.1 []

/-! ### The commands: encoding, effect with its frame, faults of its header, corner cases -/

/-- 41_crc_update.md R125. The effect leaves every field but `RESP[OWNER]` and the working register `W` as it was, `ACC`
among them. -/
def Obligations.ChecksumCommand : Prop :=
  (∀ data : List Byte, data.length ≤ 2 ^ 24 - 1 →
    encode (.checksum data) = be32 (0x10000000#32 ||| BitVec.ofNat 32 data.length) ++ data) ∧
  (∀ (s : State) (h : Nat) (data : List Byte), s.owner = some h → s.TableBuilt →
    ∃ w' : Word, exec (.checksum data) s =
      .next { s with w := w', resp := s.resp.append h (0x00#8 :: be32 (crcUpdate 0#32 data)) }) ∧
  (∀ (n : Nat) (hdr : Word), opcField hdr = 0x1#4 → aselField hdr ≠ 0#4 →
    decodeHeader n hdr = .illegal .reservedNonzero) ∧
  crcUpdate 0#32 [] = 0#32 ∧ crcUpdate 0#32 [0xFF#8] = 0x000000FF#32 ∧ crcUpdate 0#32 [0x00#8] = 0xB1F7404B#32 ∧
  crcUpdate 0#32 [0x31#8, 0x32#8, 0x33#8, 0x34#8, 0x35#8, 0x36#8, 0x37#8, 0x38#8, 0x39#8] = 0xFC891918#32

/-- 41_crc_update.md R126. The effect leaves every field but `RESP[OWNER]` and the working register `W` as it was. -/
def Obligations.UpdateCommand : Prop :=
  (∀ (prior : Word) (data : List Byte), data.length ≤ 2 ^ 24 - 1 →
    encode (.update prior data) = be32 (0x20000000#32 ||| BitVec.ofNat 32 data.length) ++ be32 prior ++ data) ∧
  (∀ (s : State) (h : Nat) (prior : Word) (data : List Byte), s.owner = some h → s.TableBuilt →
    ∃ w' : Word, exec (.update prior data) s =
      .next { s with w := w', resp := s.resp.append h (0x00#8 :: be32 (crcUpdate prior data)) }) ∧
  (∀ (n : Nat) (hdr : Word), opcField hdr = 0x2#4 → aselField hdr ≠ 0#4 →
    decodeHeader n hdr = .illegal .reservedNonzero) ∧
  (∀ prior : Word, crcUpdate prior [] = prior) ∧
  (∀ data : List Byte, crcUpdate 0#32 data = crcChecksum data) ∧
  (∀ data : List Byte, (∀ b ∈ data, b = 0#8) → crcUpdate 0xFFFFFFFF#32 data = 0xFFFFFFFF#32) ∧
  crcUpdate 0xC013A195#32 [0x33#8, 0x34#8] = 0x596A3B55#32 ∧ crcChecksum [0x31#8, 0x32#8] = 0xC013A195#32 ∧
  crcChecksum [0x31#8, 0x32#8, 0x33#8, 0x34#8] = 0x596A3B55#32

/-- 42_accumulator.md R142. Only `ACC[a]` and `RESP[OWNER]` change. -/
def Obligations.ResetCommand : Prop :=
  (∀ a : BitVec 4, encode (.reset a) = be32 (0x30000000#32 ||| (a.setWidth 32 <<< 24))) ∧
  (∀ (s : State) (h : Nat) (a : BitVec 4), s.owner = some h → a.toNat < s.accCount →
    exec (.reset a) s =
      .next { s with acc := s.acc.set a.toNat 0x00000000#32, resp := s.resp.append h [0x00#8] }) ∧
  (∀ (s : State) (a b : BitVec 4), a.toNat < s.accCount →
    accRead b { s with acc := s.acc.set a.toNat 0x00000000#32 } = if b = a then 0#32 else accRead b s) ∧
  (∀ (n : Nat) (hdr : Word), opcField hdr = 0x3#4 → immField hdr ≠ 0#24 →
    decodeHeader n hdr = .illegal .reservedNonzero) ∧
  (∀ (n : Nat) (hdr : Word), opcField hdr = 0x3#4 → immField hdr = 0#24 → n ≤ (aselField hdr).toNat →
    decodeHeader n hdr = .illegal .badAsel)

/-- 42_accumulator.md R146, 60_exceptions.md R171. Only `ACC[a]`, `RESP[OWNER]` and the working register `W` change. -/
def Obligations.WriteCommand : Prop :=
  (∀ (a : BitVec 4) (data : List Byte), data.length ≤ 2 ^ 24 - 1 →
    encode (.write a data) =
      be32 (0x40000000#32 ||| (a.setWidth 32 <<< 24) ||| BitVec.ofNat 32 data.length) ++ data) ∧
  (∀ (s : State) (h : Nat) (a : BitVec 4) (data : List Byte),
    s.owner = some h → s.TableBuilt → a.toNat < s.accCount → data.length ≤ 2 ^ 24 - 1 →
    ∃ w' : Word, exec (.write a data) s =
      .next { s with
        acc := s.acc.set a.toNat (crcUpdate (accRead a s) data)
        w := w'
        resp := s.resp.append h (0x00#8 :: be32 (BitVec.ofNat 32 data.length)) }) ∧
  (∀ (s : State) (a b : BitVec 4) (v : Word), a.toNat < s.accCount →
    accRead b { s with acc := s.acc.set a.toNat v } = if b = a then v else accRead b s) ∧
  (∀ (n : Nat) (hdr : Word), opcField hdr = 0x4#4 → n ≤ (aselField hdr).toNat →
    decodeHeader n hdr = .illegal .badAsel) ∧
  (∀ v : Word, crcUpdate v [] = v) ∧
  (∀ (v : Word) (s1 s2 : List Byte), crcUpdate (crcUpdate v s1) s2 = crcUpdate v (s1 ++ s2)) ∧
  (∀ data : List Byte, (∀ b ∈ data, b = 0#8) → crcUpdate 0xFFFFFFFF#32 data = 0xFFFFFFFF#32) ∧
  crcUpdate 0#32 [0x61#8, 0x62#8, 0x63#8] = 0x648CBB73#32

/-- 42_accumulator.md R148. No state changes but `RESP[OWNER]`. -/
def Obligations.Sum32Command : Prop :=
  (∀ a : BitVec 4, encode (.sum32 a) = be32 (0x50000000#32 ||| (a.setWidth 32 <<< 24))) ∧
  (∀ (s : State) (h : Nat) (a : BitVec 4), s.owner = some h → a.toNat < s.accCount →
    exec (.sum32 a) s = .next { s with resp := s.resp.append h (0x00#8 :: be32 (accRead a s)) }) ∧
  (∀ (n : Nat) (hdr : Word), opcField hdr = 0x5#4 → immField hdr ≠ 0#24 →
    decodeHeader n hdr = .illegal .reservedNonzero) ∧
  (∀ (n : Nat) (hdr : Word), opcField hdr = 0x5#4 → immField hdr = 0#24 → n ≤ (aselField hdr).toNat →
    decodeHeader n hdr = .illegal .badAsel) ∧
  (∀ (s t u : State) (h : Nat) (a : BitVec 4), s.owner = some h → a.toNat < s.accCount →
    exec (.sum32 a) s = .next t → exec (.sum32 a) t = .next u →
    ∃ bytes : List Byte, t.resp = s.resp.append h bytes ∧ u.resp = t.resp.append h bytes) ∧
  (∀ (s t : State) (a : BitVec 4), a.toNat < s.accCount →
    exec (.reset a) s = .next t → accRead a t = 0#32) ∧
  (∀ (s : State) (a : BitVec 4), a.toNat < s.accCount → accRead a (hardwareReset s) = 0#32)

/-- 42_accumulator.md R150. No state changes but `RESP[OWNER]`; the result is the prefix and then the 4 bytes that
`SUM32` responds. -/
def Obligations.SumCommand : Prop :=
  (∀ (a : BitVec 4) (pre : List Byte), pre.length ≤ 2 ^ 24 - 1 →
    encode (.sum a pre) =
      be32 (0x60000000#32 ||| (a.setWidth 32 <<< 24) ||| BitVec.ofNat 32 pre.length) ++ pre) ∧
  (∀ (s : State) (h : Nat) (a : BitVec 4) (pre : List Byte), s.owner = some h → a.toNat < s.accCount →
    exec (.sum a pre) s = .next { s with resp := s.resp.append h (0x00#8 :: (pre ++ be32 (accRead a s))) } ∧
    exec (.sum32 a) s = .next { s with resp := s.resp.append h (0x00#8 :: be32 (accRead a s)) }) ∧
  (∀ (n : Nat) (hdr : Word), opcField hdr = 0x6#4 → n ≤ (aselField hdr).toNat →
    decodeHeader n hdr = .illegal .badAsel)

/-- 42_accumulator.md R152. No state changes but `RESP[OWNER]`. -/
def Obligations.SizeCommand : Prop :=
  encode .size = be32 0x70000000#32 ∧
  (∀ (s : State) (h : Nat), s.owner = some h →
    exec .size s = .next { s with resp := s.resp.append h (0x00#8 :: be32 4#32) }) ∧
  (∀ (n : Nat) (hdr : Word), opcField hdr = 0x7#4 → aselField hdr ≠ 0#4 ∨ immField hdr ≠ 0#24 →
    decodeHeader n hdr = .illegal .reservedNonzero)

/-- 42_accumulator.md R154. No state changes but `RESP[OWNER]`. -/
def Obligations.BsizeCommand : Prop :=
  encode .bsize = be32 0x80000000#32 ∧
  (∀ (s : State) (h : Nat), s.owner = some h →
    exec .bsize s = .next { s with resp := s.resp.append h (0x00#8 :: be32 1#32) }) ∧
  (∀ (n : Nat) (hdr : Word), opcField hdr = 0x8#4 → aselField hdr ≠ 0#4 ∨ immField hdr ≠ 0#24 →
    decodeHeader n hdr = .illegal .reservedNonzero)

/-- 40_table_generator.md R105. No state changes but `RESP[OWNER]`. -/
def Obligations.TblrdCommand : Prop :=
  (∀ idx : Byte, encode (.tblrd idx) = be32 (0x90000000#32 ||| idx.setWidth 32)) ∧
  (∀ (s : State) (h : Nat) (idx : Byte), s.owner = some h →
    exec (.tblrd idx) s = .next { s with resp := s.resp.append h (0x00#8 :: be32 (s.table.read idx.toNat)) } ∧
    (s.TableBuilt → s.table.read idx.toNat = tableEntry idx)) ∧
  (∀ (n : Nat) (hdr : Word), opcField hdr = 0x9#4 → aselField hdr ≠ 0#4 ∨ hdr.extractLsb' 8 16 ≠ 0#16 →
    decodeHeader n hdr = .illegal .reservedNonzero) ∧
  tableEntry 0#8 = 0#32 ∧ tableEntry 1#8 = 0x04C11DB7#32 ∧ tableEntry 0x80#8 = 0x690CE0EE#32

/-- 30_encoding.md R75, R77: a legal command answers a next state in which the host that owns it has exactly the response
of the table, and every other host's responses are as before; its length is the table's. -/
def Obligations.ResponseTable : Prop :=
  ∀ (s : State) (h : Nat) (i : Instr), s.owner = some h → s.TableBuilt → i.wf s.accCount = true →
    (∃ t : State, exec i s = .next t ∧
      t.resp.get h = s.resp.get h ++ expectedResponse i s ∧
      ∀ k : Nat, k ≠ h → t.resp.get k = s.resp.get k) ∧
    (expectedResponse i s).length =
      match i with
      | .checksum _ => 5
      | .update _ _ => 5
      | .reset _ => 1
      | .write _ _ => 5
      | .sum32 _ => 5
      | .sum _ pre => 5 + pre.length
      | .size => 5
      | .bsize => 5
      | .tblrd _ => 5

/-- 60_exceptions.md R170: a legal command completes whatever its operands and the table hold, and leaves the fault
registers, the table, the generator, the packet parser and the command streams as they were; its status is 0x00. -/
def Obligations.LegalCommandsNeverFault : Prop :=
  ∀ (s : State) (h : Nat) (i : Instr), s.owner = some h → i.wf s.accCount = true →
    ∃ (t : State) (bytes : List Byte), exec i s = .next t ∧
      t = { s with acc := t.acc, w := t.w, resp := s.resp.append h (0x00#8 :: bytes) } ∧
      t.accCount = s.accCount

/-- 20_memory.md R50: the reading commands leave every field but the responses as it was, and of the responses only the
owner's can change. -/
def Obligations.ReadsHaveNoSideEffects : Prop :=
  ∀ (s t : State) (i : Instr),
    i.opcode ∈ [Opcode.sum32, Opcode.sum, Opcode.size, Opcode.bsize, Opcode.tblrd] → i.wf s.accCount = true →
    exec i s = .next t →
    t = { s with resp := t.resp } ∧ ∀ k : Nat, s.owner ≠ some k → t.resp.get k = s.resp.get k

/-- 30_encoding.md R80: `UPDATE 0, data` answers as `CHECKSUM data` does; the packets differ, and both are legal. -/
def Obligations.UpdateZeroIsChecksum : Prop :=
  (∀ (s : State) (data : List Byte), exec (.update 0#32 data) s = exec (.checksum data) s) ∧
  (∀ data : List Byte, crcUpdate 0#32 data = crcChecksum data) ∧
  (∀ data : List Byte, encode (.update 0#32 data) ≠ encode (.checksum data)) ∧
  ∀ (n : Nat) (data : List Byte), data.length ≤ 2 ^ 24 - 1 →
    (Instr.update 0#32 data).wf n = true ∧ (Instr.checksum data).wf n = true

/-- An accumulator number that does not exist, in a command that no packet decodes to: the model's own choice (entry 15,
from 30_encoding.md R71) is that the meaning takes the `BAD_ASEL` fault of the command's header. -/
def Obligations.MissingAccumulatorFaults : Prop :=
  ∀ (s : State) (h : Nat) (a : BitVec 4) (i : Instr), s.owner = some h → i.accOf = some a → s.accCount ≤ a.toNat →
    exec i s = .next { s with
      faulted := true
      faultCause := 0x03#8
      faultHdr := i.header
      pstate := .idle
      resp := s.resp.append h [0x03#8] }

/-- With no owner there is no host to respond to, and the meaning stops: the model's own choice (entry 12). No run
reaches it. -/
def Obligations.NoOwnerStops : Prop :=
  ∀ (s : State) (i : Instr), s.owner = none → exec i s = .fault .noOwner

/-! ### Programs of commands (the operation level, 00_scope.md R7) -/

/-- 70_reset_and_hazards.md R198: a `SUM32` right after a `WRITE` responds the updated value. -/
def Obligations.ReadAfterWrite : Prop :=
  ∀ (s : State) (h k : Nat) (a : BitVec 4) (data : List Byte), s.TableBuilt → a.toNat < s.accCount →
    ∃ t u : State, execAll [(h, .write a data)] s = .next t ∧
      execAll [(k, .sum32 a)] t = .next u ∧
      u.resp = t.resp.append k (0x00#8 :: be32 (crcUpdate (accRead a s) data))

/-- 42_accumulator.md R156: after a `RESET` and any appends, the accumulator holds the checksum of the concatenation,
whatever it held before; a fresh accumulator reaches the same. -/
def Obligations.ResetReproducibility : Prop :=
  ∀ (s : State) (h : Nat) (a : BitVec 4) (chunks : List (List Byte)), s.TableBuilt → a.toNat < s.accCount →
    (∃ t : State, execAll ((h, .reset a) :: chunks.map (fun c => (h, .write a c))) s = .next t ∧
      accRead a t = crcChecksum chunks.flatten) ∧
    (accRead a s = 0#32 →
      ∃ t : State, execAll (chunks.map (fun c => (h, .write a c))) s = .next t ∧
        accRead a t = crcChecksum chunks.flatten)

/-- 10_state.md R23: whatever legal commands run, of whatever hosts, the accumulator holds the checksum of the bytes
appended since its last clear. -/
def Obligations.AccumulatorHoldsItsChecksum : Prop :=
  ∀ (s : State) (a : BitVec 4) (content : List Byte) (cmds : List (Nat × Instr)),
    s.TableBuilt → a.toNat < s.accCount → accRead a s = crcChecksum content →
    (∀ c ∈ cmds, c.2.wf s.accCount = true) →
    ∃ t : State, execAll cmds s = .next t ∧ accRead a t = crcChecksum (contentOf a content cmds)

/-- 42_accumulator.md R158: the commands that do not name `a` can be left out without changing what `ACC[a]` ends as,
and no other accumulator has any influence on it; nor has an accumulator that a command does not name any influence on
the response to the command. -/
def Obligations.AccumulatorsAreIndependent : Prop :=
  (∀ (s s' : State) (a : BitVec 4) (cmds : List (Nat × Instr)),
    s.TableBuilt → s'.TableBuilt → s.accCount = s'.accCount → a.toNat < s.accCount → accRead a s = accRead a s' →
    (∀ c ∈ cmds, c.2.wf s.accCount = true) →
    ∃ t t' : State, execAll cmds s = .next t ∧
      execAll (cmds.filter (fun c => c.2.accOf == some a)) s' = .next t' ∧ accRead a t = accRead a t') ∧
  ∀ (s t : State) (file : List Word) (i : Instr), file.length = s.accCount → i.wf s.accCount = true →
    (∀ a : BitVec 4, i.accOf = some a → accRead a { s with acc := file } = accRead a s) →
    exec i s = .next t →
    ∃ t' : State, exec i { s with acc := file } = .next t' ∧ t'.resp = t.resp

/-- 30_encoding.md R79: `NEW` is `RESET`; the chunks of `LWRITE` make up its data, there are
`max(1, ceil(len / LEN_MAX))` of them, every one but the last has `LEN_MAX` bytes, and their `WRITE`s leave the
accumulator as `Update` over the whole data does, with one response each, whose counts add up to the length. -/
def Obligations.PseudoInstructions : Prop :=
  (∀ a : Nat, assemble (.new a) = assemble (.reset a)) ∧
  (∀ (a : Nat) (data : List Byte), a ≤ 15 →
    assemble (.lwrite a data) =
      some ((chunksOf (2 ^ 24 - 1) data).map (fun c => .write (BitVec.ofNat 4 a) c))) ∧
  (∀ data : List Byte,
    (chunksOf (2 ^ 24 - 1) data).flatten = data ∧
    (chunksOf (2 ^ 24 - 1) data).length = max 1 ((data.length + (2 ^ 24 - 1) - 1) / (2 ^ 24 - 1)) ∧
    (∀ c ∈ (chunksOf (2 ^ 24 - 1) data).dropLast, c.length = 2 ^ 24 - 1) ∧
    (∀ c ∈ chunksOf (2 ^ 24 - 1) data, c.length ≤ 2 ^ 24 - 1) ∧
    ((chunksOf (2 ^ 24 - 1) data).map List.length).sum = data.length) ∧
  ∀ (s : State) (h : Nat) (a : BitVec 4) (data : List Byte), s.TableBuilt → a.toNat < s.accCount →
    ∃ t : State,
      execAll ((chunksOf (2 ^ 24 - 1) data).map (fun c => (h, .write a c))) s = .next t ∧
      accRead a t = crcUpdate (accRead a s) data ∧
      t.resp.get h = s.resp.get h ++
        ((chunksOf (2 ^ 24 - 1) data).map (fun c => 0x00#8 :: be32 (BitVec.ofNat 32 c.length))).flatten

/-! ### Acceptance (30_encoding.md R74) -/

/-- A step runs the decoded command: where a legal command's packet has arrived whole, in the buffers of a command with a
payload or with the last header byte next in the owner's stream for one without, the step is that command's meaning, with
`PSTATE` back at `IDLE` (and with that last byte taken into `HDR_BUF` and `H`). -/
def Obligations.StepRunsTheDecodedCommand : Prop :=
  (∀ (s : State) (i : Instr), s.Accepting → i.wf s.accCount = true →
    i.opcode ∈ [Opcode.checksum, Opcode.update, Opcode.write, Opcode.sum] →
    s.pstate = .data ∨ s.pstate = .pfx → s.remain = 0#24 → s.hdr = i.header → s.payload = i.payload →
    (i.opcode = .update → s.priorBuf = i.priorBytes) →
    step s = exec i { s with pstate := .idle }) ∧
  ∀ (s : State) (h : Nat) (b0 b1 b2 b3 : Byte) (rest : List Byte) (i : Instr),
    s.Accepting → i.wf s.accCount = true →
    i.opcode ∈ [Opcode.reset, Opcode.sum32, Opcode.size, Opcode.bsize, Opcode.tblrd] →
    s.pstate = .hdr → s.owner = some h → s.hdrBuf = [b0, b1, b2] → s.cmd.get h = b3 :: rest →
    encode i = [b0, b1, b2, b3] →
    step s = exec i { s with
      pstate := .idle, hdrBuf := [b0, b1, b2, b3], hdr := i.header, cmd := s.cmd.put h rest }

/-- 30_encoding.md R74: every transition of acceptance, while `FAULTED = 0` and `TABLE_READY = 1`. (`choices` is the
model's count of free choices, entry 8; a transition is one step, entry 10; that the payload buffer starts empty is
entry 17.) -/
def Obligations.AcceptanceTransitions : Prop :=
  ∀ s : State, s.Accepting →
    (s.pstate = .idle → (∀ h : Nat, s.cmd.get h = []) → s.cmd.wf = true → step s = .next s) ∧
    (s.pstate = .idle → (∃ h : Nat, s.cmd.get h ≠ []) → s.cmd.wf = true →
      ∃ h : Nat, s.cmd.get h ≠ [] ∧
        step s = .next { s with owner := some h, pstate := .hdr, hdrBuf := [], choices := s.choices + 1 }) ∧
    (∀ h : Nat, s.owner = some h → s.cmd.get h = [] → s.pstate = .hdr ∨ s.pstate = .prior → step s = .next s) ∧
    (∀ h : Nat, s.owner = some h → s.cmd.get h = [] → s.pstate = .data ∨ s.pstate = .pfx → s.remain ≠ 0#24 →
      step s = .next s) ∧
    (∀ (h : Nat) (b : Byte) (rest : List Byte), s.owner = some h → s.cmd.get h = b :: rest →
      (s.pstate = .hdr → s.hdrBuf.length < 3 →
        step s = .next { s with hdrBuf := s.hdrBuf ++ [b], cmd := s.cmd.put h rest }) ∧
      (s.pstate = .prior → s.priorBuf.length < 3 →
        step s = .next { s with priorBuf := s.priorBuf ++ [b], cmd := s.cmd.put h rest }) ∧
      (s.pstate = .prior → s.priorBuf.length = 3 →
        step s = .next { s with
          priorBuf := s.priorBuf ++ [b], cmd := s.cmd.put h rest, pstate := .data,
          remain := immField s.hdr, payload := [] }) ∧
      (s.pstate = .data ∨ s.pstate = .pfx → s.remain ≠ 0#24 →
        step s = .next { s with
          payload := s.payload ++ [b], cmd := s.cmd.put h rest, remain := s.remain - 1#24 }) ∧
      (∀ b0 b1 b2 : Byte, s.pstate = .hdr → s.hdrBuf = [b0, b1, b2] →
        let t : State := { s with
          hdrBuf := [b0, b1, b2, b], hdr := be32inv b0 b1 b2 b, cmd := s.cmd.put h rest }
        (∀ c : Cause, decodeHeader s.accCount t.hdr = .illegal c → step s = raiseFault c t.hdr t) ∧
        (decodeHeader s.accCount t.hdr = .legal .update →
          step s = .next { t with pstate := .prior, priorBuf := [] }) ∧
        (decodeHeader s.accCount t.hdr = .legal .checksum ∨ decodeHeader s.accCount t.hdr = .legal .write →
          step s = .next { t with pstate := .data, remain := immField t.hdr, payload := [] }) ∧
        (decodeHeader s.accCount t.hdr = .legal .sum →
          step s = .next { t with pstate := .pfx, remain := immField t.hdr, payload := [] }) ∧
        (∀ op : Opcode, op ∈ [Opcode.reset, Opcode.sum32, Opcode.size, Opcode.bsize, Opcode.tblrd] →
          decodeHeader s.accCount t.hdr = .legal op →
          step s = exec (operands op t.hdr t.priorBuf t.payload) { t with pstate := .idle }))) ∧
    (∀ op : Opcode, s.pstate = .data ∨ s.pstate = .pfx → s.remain = 0#24 →
      decodeHeader s.accCount s.hdr = .legal op →
      step s = exec (operands op s.hdr s.priorBuf s.payload) { s with pstate := .idle })

/-- A host's whole packet, whatever else is in the streams: an idle CORE whose choice falls on that host takes exactly
the packet's bytes, in the stated number of steps, and then has run the command. That a transition is one step is entry 10;
the count of choices, and what the parser's buffers hold when the command runs (`acceptedState`), are entries 8 and 17. -/
def Obligations.WholePacketRunsItsCommand : Prop :=
  ∀ (s : State) (h : Nat) (i : Instr) (rest : List Byte),
    s.Accepting → s.pstate = .idle → s.cmd.wf = true → chooseHost s.choices s.cmd.ready = some h →
    s.cmd.get h = encode i ++ rest → i.wf s.accCount = true →
    runSteps (packetSteps i) s = exec i (acceptedState h i rest s)

/-- One host's packets back to back: the run consumes them all, ends well (70_reset_and_hazards.md R201), and leaves the
accumulators and the responses that the commands leave at the operation level (00_scope.md R7, 20_memory.md R53). The
number of steps is the model's (entry 10: a transition of 30_encoding.md R74 is one step). -/
def Obligations.PacketProgramRunsToItsEnd : Prop :=
  ∀ (s : State) (h : Nat) (cmds : List Instr),
    s.Accepting → s.pstate = .idle → cmds ≠ [] →
    s.cmd = [(h, (cmds.map encode).flatten)] → (∀ i ∈ cmds, i.wf s.accCount = true) →
    ∃ t u : State, runSteps (cmds.map packetSteps).sum s = .next t ∧ t.RunEnded ∧
      execAll (cmds.map (fun i => (h, i))) s = .next u ∧ t.acc = u.acc ∧ t.resp = u.resp

/-- 20_memory.md R54: with one packet from each of two hosts, the packets are taken whole and in one of the two orders;
the free choice decides which. The choice and its count are entry 8, the number of steps is entry 10, and what the
parser's buffers hold when a command runs (`acceptedState`) is entry 17. -/
def Obligations.TwoHostsInEitherOrder : Prop :=
  ∀ (s : State) (hA hB : Nat) (i j : Instr),
    s.Accepting → s.pstate = .idle → hA < hB → s.cmd = [(hA, encode i), (hB, encode j)] →
    i.wf s.accCount = true → j.wf s.accCount = true →
    ∃ t u : State, runSteps (packetSteps i + packetSteps j) s = .next t ∧
      ((exec i (acceptedState hA i [] s) = .next u ∧ exec j (acceptedState hB j [] u) = .next t) ∨
       (exec j (acceptedState hB j [] s) = .next u ∧ exec i (acceptedState hA i [] u) = .next t))

/-- 10_state.md R28: while a packet is in progress its owner holds the port: no other host's stream is read, at most one
byte is taken from the owner's, and the owner stays until the packet ends. -/
def Obligations.OwnerHoldsThePort : Prop :=
  ∀ (s t : State) (h : Nat), s.cmd.wf = true → s.pstate ≠ .idle → s.owner = some h → step s = .next t →
    (∀ k : Nat, k ≠ h → t.cmd.get k = s.cmd.get k) ∧
    (∃ taken : List Byte, s.cmd.get h = taken ++ t.cmd.get h ∧ taken.length ≤ 1) ∧
    t.owner = some h

/-- 10_state.md R32: a step only appends to response streams, and only to that of the owner. What stands in them has no
influence on anything: whatever they hold, the same bytes are appended and every other field becomes the same. -/
def Obligations.ResponsesAreOnlyAppended : Prop :=
  ∀ s t : State, step s = .next t →
    ∃ bytes : Nat → List Byte,
      (∀ k : Nat, s.owner ≠ some k → bytes k = []) ∧
      (∀ k : Nat, t.resp.get k = s.resp.get k ++ bytes k) ∧
      ∀ r : Streams, ∃ t' : State, step { s with resp := r } = .next t' ∧ t' = { t with resp := t'.resp } ∧
        ∀ k : Nat, t'.resp.get k = r.get k ++ bytes k

/-- 20_memory.md R49, 10_state.md R24: a step changes the accumulators only as the one transition that executes a
`RESET` or a `WRITE` at the end of its packet, and then only the accumulator the header names. -/
def Obligations.AccumulatorsChangeOnlyAtPacketEnd : Prop :=
  ∀ s t : State, step s = .next t → t.acc ≠ s.acc →
    s.faulted = false ∧ s.tableReady = true ∧ t.pstate = .idle ∧ s.pstate ≠ .idle ∧ t.faulted = false ∧
    (decodeHeader s.accCount t.hdr = .legal .reset ∨ decodeHeader s.accCount t.hdr = .legal .write) ∧
    ∃ v : Word, t.acc = s.acc.set (aselField t.hdr).toNat v

/-! ### Header faults (60_exceptions.md) -/

/-- 60_exceptions.md R173: the entry of a header fault: the fourth header byte has been taken and nothing after it, the
fault registers are written, the owner gets the one byte of the cause's code (R172), and every other field is as it was.
From an idle CORE it takes 5 steps (entry 10), and then the CORE stays as it is. -/
def Obligations.HeaderFaultEntry : Prop :=
  (∀ (s : State) (h : Nat) (b0 b1 b2 b3 : Byte) (rest : List Byte) (c : Cause),
    s.Accepting → s.pstate = .hdr → s.owner = some h → s.hdrBuf = [b0, b1, b2] → s.cmd.get h = b3 :: rest →
    decodeHeader s.accCount (be32inv b0 b1 b2 b3) = .illegal c →
    step s = .next { s with
      faulted := true
      faultCause := (match c with | .illegalOpcode => 0x01#8 | .reservedNonzero => 0x02#8 | .badAsel => 0x03#8)
      faultHdr := be32inv b0 b1 b2 b3
      hdr := be32inv b0 b1 b2 b3
      hdrBuf := [b0, b1, b2, b3]
      pstate := .idle
      cmd := s.cmd.put h rest
      resp := s.resp.append h
        [match c with | .illegalOpcode => 0x01#8 | .reservedNonzero => 0x02#8 | .badAsel => 0x03#8] }) ∧
  ∀ (s : State) (h k : Nat) (b0 b1 b2 b3 : Byte) (rest : List Byte) (c : Cause),
    s.Accepting → s.pstate = .idle → s.cmd.wf = true → chooseHost s.choices s.cmd.ready = some h →
    s.cmd.get h = b0 :: b1 :: b2 :: b3 :: rest →
    decodeHeader s.accCount (be32inv b0 b1 b2 b3) = .illegal c →
    ∃ t : State, runSteps (5 + k) s = .next t ∧ t.faulted = true ∧ t.cmd.get h = rest ∧
      t.faultHdr = be32inv b0 b1 b2 b3 ∧ t.acc = s.acc ∧ t.table = s.table ∧ t.w = s.w

/-- 10_state.md R31: from a state of the invariant, a step sets `FAULTED` only by decoding an illegal header, whose word
and cause it records; of all events only hardware reset clears it. -/
def Obligations.OnlyIllegalHeadersFault : Prop :=
  (∀ s t : State, s.Inv → step s = .next t → s.faulted = false → t.faulted = true →
    ∃ (h : Nat) (b : Byte) (rest : List Byte) (c : Cause),
      s.pstate = .hdr ∧ s.owner = some h ∧ s.cmd.get h = b :: rest ∧ be32 t.faultHdr = s.hdrBuf ++ [b] ∧
      decodeHeader s.accCount t.faultHdr = .illegal c ∧
      t.faultCause = match c with | .illegalOpcode => 0x01#8 | .reservedNonzero => 0x02#8 | .badAsel => 0x03#8) ∧
  (∀ (s t : State) (e : HostEvent), s.faulted = true → applyEvent e s = .next t → t.faulted = false →
    e = .hardwareReset) ∧
  ∀ s t : State, applyEvent .hardwareReset s = .next t →
    t.faulted = false ∧ t.faultCause = 0#8 ∧ t.faultHdr = 0#32

/-- 60_exceptions.md R174: while `FAULTED = 1` nothing but hardware reset changes the CORE: whatever the hosts send and
take, and however long it runs, no byte is accepted, no command executes and nothing is appended to a response; hardware
reset sets the accumulators to 0; a faulted state is no successful end. -/
def Obligations.FaultedCoreIsFrozen : Prop :=
  (∀ s : State, s.faulted = true → step s = .next s ∧ ¬ s.RunEnded) ∧
  (∀ s t : State, applyEvent .hardwareReset s = .next t → t.acc = List.replicate s.accCount 0#32) ∧
  ∀ (s : State) (events : List HostEvent),
    s.faulted = true → s.cmd.wf = true → s.resp.wf = true → HostEvent.hardwareReset ∉ events →
    ∃ t : State, runEvents events s = .next t ∧ t = { s with cmd := t.cmd, resp := t.resp } ∧
      ∀ h : Nat, (∃ sent : List Byte, t.cmd.get h = s.cmd.get h ++ sent) ∧
        ∃ taken : Nat, t.resp.get h = (s.resp.get h).drop taken

/-! ### The generator and hardware reset -/

/-- 70_reset_and_hazards.md R196: while `TABLE_READY = 0` no byte of any stream is accepted, no response is made, and
only the table and the generator's state move; the hold ends on its own. -/
def Obligations.TableReadyHold : Prop :=
  ∀ s : State, s.faulted = false → s.tableReady = false →
    (∃ t : State, step s = .next t ∧
      t = { s with
        table := t.table, tableReady := t.tableReady, genIdx := t.genIdx, genBit := t.genBit, genW := t.genW,
        genLeft := t.genLeft }) ∧
    ∃ (k : Nat) (t : State), runSteps k s = .next t ∧ t.tableReady = true

/-- 70_reset_and_hazards.md R193, for every `GEN_LATENCY` of at least 1: from any state, after a hardware reset the
generator ends after exactly `GEN_LATENCY` steps, and at the end of them every entry is final; before that `TABLE_READY`
is 0. What one step of the generator is, and the one step it takes with `GEN_LATENCY = 0`, are the model's choice
(entries 2 and 10). -/
def Obligations.GeneratorBuildsTheTable : Prop :=
  ∀ s : State, 1 ≤ s.genLatency →
    (∃ t : State, runSteps s.genLatency (hardwareReset s) = .next t ∧ t.tableReady = true ∧
      t.table = builtTable ∧ ∀ i : Byte, t.table.read i.toNat = tableEntry i) ∧
    ∀ k : Nat, k < s.genLatency →
      ∃ t : State, runSteps k (hardwareReset s) = .next t ∧ t.tableReady = false

/-- From 40_table_generator.md R102: the step that completes the 256 writes, and no other, sets `TABLE_READY`; from then
on no event but a hardware reset writes the table or runs the generator (R103). That `GEN_IDX`, `GEN_BIT` and `GEN_W`
keep their values while `TABLE_READY = 1`, where 10_state.md R26 has them no longer exist, is the model's choice
(entry 19). -/
def Obligations.TableIsWrittenOnce : Prop :=
  (∀ s t : State, s.Inv → s.tableReady = false → s.tableImpl = .generated → step s = .next t →
    (t.tableReady = true ↔ t.table = builtTable)) ∧
  (∀ s : State, s.Inv → s.tableReady = true → ∀ i : Byte, s.table.read i.toNat = tableEntry i) ∧
  ∀ (s t : State) (events : List HostEvent), s.tableReady = true → HostEvent.hardwareReset ∉ events →
    runEvents events s = .next t →
    t.table = s.table ∧ t.tableReady = true ∧ t.genIdx = s.genIdx ∧ t.genBit = s.genBit ∧ t.genW = s.genW

/-- From 70_reset_and_hazards.md R190 and R191, and 10_state.md R34 for `GEN_IDX`, `GEN_BIT` and `GEN_W`: what hardware
reset does, from any state. That the hosts' unread command bytes stay is the model's choice (entry 9); the parameters,
which stay too, are entries 1 to 3. -/
def Obligations.HardwareResetValues : Prop :=
  ∀ s : State, ∃ t : State, applyEvent .hardwareReset s = .next t ∧
    t.tableReady = false ∧ t.acc = List.replicate s.accCount 0#32 ∧ t.pstate = .idle ∧ t.hdrBuf = [] ∧
    t.priorBuf = [] ∧ t.remain = 0#24 ∧ t.owner = none ∧ t.faulted = false ∧ t.faultCause = 0#8 ∧
    t.faultHdr = 0#32 ∧ (∀ h : Nat, t.resp.get h = []) ∧ t.genIdx = 0 ∧ t.genBit = 0 ∧ t.genW = 0#32 ∧
    t.cmd = s.cmd ∧ t.accCount = s.accCount ∧ t.genLatency = s.genLatency ∧ t.tableImpl = s.tableImpl

/-- 10_state.md R34: the values the spec gives for the state after reset, in every configuration; the reference
configuration is the one of `State.reset`. -/
def Obligations.ResetValues : Prop :=
  ∀ (n latency : Nat) (impl : TableImpl),
    let t := State.resetWith n latency impl
    t.tableReady = false ∧ t.acc = List.replicate n 0#32 ∧ t.genIdx = 0 ∧ t.genBit = 0 ∧ t.genW = 0#32 ∧
    t.pstate = .idle ∧ t.hdrBuf = [] ∧ t.priorBuf = [] ∧ t.remain = 0#24 ∧ t.owner = none ∧ t.faulted = false ∧
    t.faultCause = 0#8 ∧ t.faultHdr = 0#32 ∧ (∀ h : Nat, t.resp.get h = []) ∧ State.reset.accCount = 1

/-! ### The invariant -/

/-- The invariant holds right after reset, in every configuration the spec allows and in the reference one. -/
def Obligations.ResetHasTheInvariant : Prop :=
  State.reset.Inv ∧
  ∀ (n latency : Nat) (impl : TableImpl), 1 ≤ n → n ≤ 16 → (State.resetWith n latency impl).Inv

/-- Every step keeps the invariant: the table's and the streams' canonical form, the finished table once
`TABLE_READY = 1`, the generator's progress, the packet parser's buffers, and the fault registers. -/
def Obligations.StepKeepsTheInvariant : Prop :=
  ∀ s t : State, s.Inv → step s = .next t → t.Inv

/-- Whatever the outside world does between steps keeps the invariant too, over runs of any length. -/
def Obligations.EventsKeepTheInvariant : Prop :=
  ∀ (events : List HostEvent) (s t : State), s.Inv → runEvents events s = .next t → t.Inv

/-- From a state of the invariant no run stops: every event sequence answers a next state. -/
def Obligations.RunsNeverStop : Prop :=
  ∀ (events : List HostEvent) (s : State), s.Inv → ∃ t : State, runEvents events s = .next t
end

