-- ==== Sys2Proof/Laws/Decode.lean ====
section
/-! SUPPORT. Laws of the byte order, the header fields, the header decoder and the operand decoder. -/

namespace Sys2Proof

/-! ### Byte order (00_scope.md R13) -/

@[simp] theorem be32_length (v : Word) : (be32 v).length = 4 := rfl

theorem be32_eq (v : Word) :
    be32 v = [v.extractLsb' 24 8, v.extractLsb' 16 8, v.extractLsb' 8 8, v.extractLsb' 0 8] := rfl

theorem be32inv_extract (v : Word) :
    be32inv (v.extractLsb' 24 8) (v.extractLsb' 16 8) (v.extractLsb' 8 8) (v.extractLsb' 0 8) = v := by
  ext i hi
  simp only [be32inv, BitVec.getElem_xor, BitVec.getElem_shiftLeft, BitVec.getElem_setWidth,
    BitVec.getLsbD_extractLsb']
  rcases Nat.lt_or_ge i 8 with h | h <;> rcases Nat.lt_or_ge i 16 with h' | h' <;>
    rcases Nat.lt_or_ge i 24 with h'' | h'' <;> simp <;> grind

theorem be32_inv_bytes (b0 b1 b2 b3 : Byte) : be32 (be32inv b0 b1 b2 b3) = [b0, b1, b2, b3] := by
  simp only [be32, List.cons.injEq, and_true]
  refine ⟨?_, ?_, ?_, ?_⟩ <;> (ext i hi; simp [be32inv]; try grind)

/-- On 4 bytes the value of a buffer is `BE32inv`. -/
theorem beWord_four (b0 b1 b2 b3 : Byte) : beWord [b0, b1, b2, b3] = be32inv b0 b1 b2 b3 := by
  ext i hi
  simp [beWord, be32inv]
  grind

theorem beWord_of_be32 (v : Word) : beWord (be32 v) = v := by
  rw [be32_eq, beWord_four, be32inv_extract]

/-! ### Header fields of an encoded command (30_encoding.md R61) -/

@[simp] theorem opcField_header (i : Instr) : opcField i.header = i.opcode.code := by
  ext k hk
  simp [opcField, Instr.header]
  grind

@[simp] theorem aselField_header (i : Instr) : aselField i.header = i.asel := by
  ext k hk
  simp [aselField, Instr.header]
  grind

@[simp] theorem immField_header (i : Instr) : immField i.header = i.imm := by
  ext k hk
  simp [immField, Instr.header]
  grind

theorem idxField_eq (h : Word) : idxField h = (immField h).setWidth 8 := by
  ext k hk
  simp [idxField, immField]
  grind

theorem immHighField_eq (h : Word) : immHighField h = (immField h).extractLsb' 8 16 := by
  ext k hk
  simp [immHighField, immField]

/-- A header is its three fields. -/
theorem header_of_fields (h : Word) : (opcField h ++ aselField h ++ immField h : Word) = h := by
  ext k hk
  simp [opcField, aselField, immField]
  grind

/-! ### The opcode map (30_encoding.md R67) -/

@[simp] theorem opcodeOf_code (op : Opcode) : opcodeOf op.code = some op := by cases op <;> rfl

theorem opcodeOf_some {c : BitVec 4} {op : Opcode} (h : opcodeOf c = some op) : op.code = c := by
  have := List.find?_some h
  simpa using this

theorem opcodeOf_none {c : BitVec 4} (h : opcodeOf c = none) : c = 0#4 ∨ 0xA#4 ≤ c := by
  revert h; revert c; decide

/-! ### The header decoder (30_encoding.md R72) -/

/-- What a legal header is: each of the three checks passes. -/
theorem decodeHeader_legal_iff {n : Nat} {h : Word} {op : Opcode} :
    decodeHeader n h = .legal op ↔
      opcodeOf (opcField h) = some op ∧ reservedClear op h = true ∧
        (op.usesAsel = true → (aselField h).toNat < n) := by
  unfold decodeHeader
  cases hc : opcodeOf (opcField h) with
  | none => simp
  | some op' =>
    simp only [Option.some.injEq]
    by_cases hr : reservedClear op' h = false
    · simp only [hr, if_true]
      constructor
      · intro hx; cases hx
      · rintro ⟨rfl, h2, -⟩; simp [hr] at h2
    · rw [if_neg hr]
      by_cases hb : op'.usesAsel = true ∧ n ≤ (aselField h).toNat
      · rw [if_pos hb]
        constructor
        · intro hx; cases hx
        · rintro ⟨rfl, -, h3⟩
          have := h3 hb.1
          omega
      · rw [if_neg hb]
        simp only [HeaderResult.legal.injEq]
        constructor
        · rintro rfl
          refine ⟨rfl, by simpa using hr, fun hu => ?_⟩
          by_contra hlt
          exact hb ⟨hu, by omega⟩
        · rintro ⟨rfl, -, -⟩; rfl

/-- The header of a legal command decodes to its opcode. -/
theorem decodeHeader_header {n : Nat} {i : Instr} (h : i.wf n = true) :
    decodeHeader n i.header = .legal i.opcode := by
  rw [decodeHeader_legal_iff]
  refine ⟨by simp, ?_, ?_⟩
  · cases i <;> simp [reservedClear, Instr.asel, Instr.accOf, Instr.opcode, Opcode.usesAsel, Opcode.immUse,
      Instr.imm, immHighField_eq]
    ext k hk
    simp
  · intro hu
    cases i <;> simp_all [Instr.opcode, Opcode.usesAsel, Instr.asel, Instr.accOf, Instr.wf, Instr.accOk]

/-- The operands of a legal command's packet are the command's. -/
theorem operands_header (i : Instr) : operands i.opcode i.header i.priorBytes i.payload = i := by
  cases i <;> simp [operands, Instr.opcode, Instr.payload, Instr.priorBytes, Instr.asel, Instr.accOf,
    beWord_of_be32, idxField_eq, Instr.imm]

@[simp] theorem priorBytes_length (i : Instr) : i.priorBytes.length = i.opcode.priorLen := by
  cases i <;> rfl

/-- A legal command's header announces the length of its payload. -/
theorem payloadLen_header {n : Nat} {i : Instr} (h : i.wf n = true) :
    payloadLen i.opcode i.header = i.payload.length := by
  have hl : i.payload.length ≤ 2 ^ 24 - 1 := by
    simp only [Instr.wf, Instr.lenOk, Bool.and_eq_true, decide_eq_true_eq] at h
    exact h.1
  have hm : i.payload.length % 2 ^ 24 = i.payload.length := Nat.mod_eq_of_lt (by omega)
  cases i <;> simp_all [payloadLen, Instr.opcode, Opcode.immUse, Instr.payload, Instr.imm]

theorem encode_length (i : Instr) :
    (encode i).length = 4 + i.opcode.priorLen + i.payload.length := by
  simp [encode, Nat.add_assoc]

/-- Only a header of these commands announces a payload; the others' packets end with it. -/
theorem payload_nil_of_immUse {i : Instr} (h : i.opcode.immUse ≠ .length) : i.payload = [] := by
  cases i <;> simp_all [Instr.opcode, Opcode.immUse, Instr.payload]

theorem tableBytes_length (w k count : Nat) : (tableBytes w k count).length = count := by
  induction count generalizing k with
  | zero => rfl
  | succ n ih => simp [tableBytes, ih]

/-! ### The command that a legal header and its bytes decode to -/

/-- What a legal header decodes to names an accumulator that exists. -/
theorem accOk_operands {n : Nat} {h : Word} {op : Opcode} {prior data : List Byte}
    (hd : decodeHeader n h = .legal op) : (operands op h prior data).accOk n = true := by
  have hlt := (decodeHeader_legal_iff.mp hd).2.2
  cases op <;> simp_all [operands, Instr.accOk, Instr.accOf, Opcode.usesAsel]

theorem opcode_operands (op : Opcode) (h : Word) (prior data : List Byte) :
    (operands op h prior data).opcode = op := by cases op <;> rfl

/-- The payload of the decoded command is the payload received. -/
theorem payload_operands {op : Opcode} {h : Word} {prior data : List Byte} (hl : data.length = payloadLen op h) :
    (operands op h prior data).payload = data := by
  cases op <;> simp_all [operands, Instr.payload, payloadLen, Opcode.immUse]

/-- The `PRIOR` bytes of the decoded command are those received. -/
theorem priorBytes_operands {op : Opcode} {h : Word} {prior data : List Byte} (hp : prior.length = op.priorLen) :
    (operands op h prior data).priorBytes = prior := by
  cases op with
  | update =>
    match prior, hp with
    | [p0, p1, p2, p3], _ => simp only [operands, Instr.priorBytes, beWord_four, be32_inv_bytes]
  | _ => exact (List.length_eq_zero_iff.mp hp).symm

theorem asel_operands {op : Opcode} {h : Word} {prior data : List Byte} (hr : reservedClear op h = true) :
    (operands op h prior data).asel = aselField h := by
  cases op <;> simp_all [operands, Instr.asel, Instr.accOf, reservedClear, Opcode.usesAsel]

theorem imm_operands {op : Opcode} {h : Word} {prior data : List Byte} (hr : reservedClear op h = true)
    (hl : data.length = payloadLen op h) : (operands op h prior data).imm = immField h := by
  cases op <;> simp_all [operands, Instr.imm, payloadLen, reservedClear, Opcode.usesAsel, Opcode.immUse]
  next =>
    ext k hk
    have hbit := congrArg (fun v : BitVec 16 => v.getLsbD (k - 8)) hr.2
    simp [immHighField, idxField, immField] at hbit ⊢
    grind

/-- The header of the decoded command is the header received. -/
theorem header_operands {n : Nat} {op : Opcode} {h : Word} {prior data : List Byte}
    (hd : decodeHeader n h = .legal op) (hl : data.length = payloadLen op h) :
    (operands op h prior data).header = h := by
  obtain ⟨h1, h2, -⟩ := decodeHeader_legal_iff.mp hd
  rw [Instr.header, opcode_operands, asel_operands h2, imm_operands h2 hl, opcodeOf_some h1]
  exact header_of_fields h

/-- The decoded command is legal. -/
theorem wf_operands {n : Nat} {op : Opcode} {h : Word} {prior data : List Byte}
    (hd : decodeHeader n h = .legal op) (hl : data.length = payloadLen op h) :
    (operands op h prior data).wf n = true := by
  have hlt : data.length ≤ Config.lenMax := by
    have := (immField h).isLt
    rw [hl]
    unfold payloadLen Config.lenMax
    split <;> omega
  simp only [Instr.wf, Instr.lenOk, payload_operands hl, accOk_operands hd, hlt, decide_true, Bool.and_self]

end Sys2Proof
end

