-- ==== Sys2Proof/Laws/State.lean ====
section
/-! SUPPORT. One lemma per field per named update of the state, and the fields of hardware reset. -/

namespace Sys2Proof.Machine

/-! ### accWrite -/

@[simp] theorem accWrite_table (a : BitVec 4) (v : Word) (s : State) : (accWrite a v s).table = s.table := rfl
@[simp] theorem accWrite_tableReady (a : BitVec 4) (v : Word) (s : State) : (accWrite a v s).tableReady = s.tableReady := rfl
@[simp] theorem accWrite_acc (a : BitVec 4) (v : Word) (s : State) : (accWrite a v s).acc = s.acc.set a.toNat v := rfl
@[simp] theorem accWrite_w (a : BitVec 4) (v : Word) (s : State) : (accWrite a v s).w = s.w := rfl
@[simp] theorem accWrite_genIdx (a : BitVec 4) (v : Word) (s : State) : (accWrite a v s).genIdx = s.genIdx := rfl
@[simp] theorem accWrite_genBit (a : BitVec 4) (v : Word) (s : State) : (accWrite a v s).genBit = s.genBit := rfl
@[simp] theorem accWrite_genW (a : BitVec 4) (v : Word) (s : State) : (accWrite a v s).genW = s.genW := rfl
@[simp] theorem accWrite_genLeft (a : BitVec 4) (v : Word) (s : State) : (accWrite a v s).genLeft = s.genLeft := rfl
@[simp] theorem accWrite_pstate (a : BitVec 4) (v : Word) (s : State) : (accWrite a v s).pstate = s.pstate := rfl
@[simp] theorem accWrite_hdrBuf (a : BitVec 4) (v : Word) (s : State) : (accWrite a v s).hdrBuf = s.hdrBuf := rfl
@[simp] theorem accWrite_hdr (a : BitVec 4) (v : Word) (s : State) : (accWrite a v s).hdr = s.hdr := rfl
@[simp] theorem accWrite_priorBuf (a : BitVec 4) (v : Word) (s : State) : (accWrite a v s).priorBuf = s.priorBuf := rfl
@[simp] theorem accWrite_payload (a : BitVec 4) (v : Word) (s : State) : (accWrite a v s).payload = s.payload := rfl
@[simp] theorem accWrite_remain (a : BitVec 4) (v : Word) (s : State) : (accWrite a v s).remain = s.remain := rfl
@[simp] theorem accWrite_owner (a : BitVec 4) (v : Word) (s : State) : (accWrite a v s).owner = s.owner := rfl
@[simp] theorem accWrite_faulted (a : BitVec 4) (v : Word) (s : State) : (accWrite a v s).faulted = s.faulted := rfl
@[simp] theorem accWrite_faultCause (a : BitVec 4) (v : Word) (s : State) : (accWrite a v s).faultCause = s.faultCause := rfl
@[simp] theorem accWrite_faultHdr (a : BitVec 4) (v : Word) (s : State) : (accWrite a v s).faultHdr = s.faultHdr := rfl
@[simp] theorem accWrite_cmd (a : BitVec 4) (v : Word) (s : State) : (accWrite a v s).cmd = s.cmd := rfl
@[simp] theorem accWrite_resp (a : BitVec 4) (v : Word) (s : State) : (accWrite a v s).resp = s.resp := rfl
@[simp] theorem accWrite_choices (a : BitVec 4) (v : Word) (s : State) : (accWrite a v s).choices = s.choices := rfl
@[simp] theorem accWrite_genLatency (a : BitVec 4) (v : Word) (s : State) : (accWrite a v s).genLatency = s.genLatency := rfl
@[simp] theorem accWrite_tableImpl (a : BitVec 4) (v : Word) (s : State) : (accWrite a v s).tableImpl = s.tableImpl := rfl
@[simp] theorem accWrite_accCount (a : BitVec 4) (v : Word) (s : State) : (accWrite a v s).accCount = s.accCount := by
  simp [State.accCount]

/-! ### loadW -/

@[simp] theorem loadW_table (v : Word) (s : State) : (loadW v s).table = s.table := rfl
@[simp] theorem loadW_tableReady (v : Word) (s : State) : (loadW v s).tableReady = s.tableReady := rfl
@[simp] theorem loadW_acc (v : Word) (s : State) : (loadW v s).acc = s.acc := rfl
@[simp] theorem loadW_w (v : Word) (s : State) : (loadW v s).w = ~~~v := rfl
@[simp] theorem loadW_genIdx (v : Word) (s : State) : (loadW v s).genIdx = s.genIdx := rfl
@[simp] theorem loadW_genBit (v : Word) (s : State) : (loadW v s).genBit = s.genBit := rfl
@[simp] theorem loadW_genW (v : Word) (s : State) : (loadW v s).genW = s.genW := rfl
@[simp] theorem loadW_genLeft (v : Word) (s : State) : (loadW v s).genLeft = s.genLeft := rfl
@[simp] theorem loadW_pstate (v : Word) (s : State) : (loadW v s).pstate = s.pstate := rfl
@[simp] theorem loadW_hdrBuf (v : Word) (s : State) : (loadW v s).hdrBuf = s.hdrBuf := rfl
@[simp] theorem loadW_hdr (v : Word) (s : State) : (loadW v s).hdr = s.hdr := rfl
@[simp] theorem loadW_priorBuf (v : Word) (s : State) : (loadW v s).priorBuf = s.priorBuf := rfl
@[simp] theorem loadW_payload (v : Word) (s : State) : (loadW v s).payload = s.payload := rfl
@[simp] theorem loadW_remain (v : Word) (s : State) : (loadW v s).remain = s.remain := rfl
@[simp] theorem loadW_owner (v : Word) (s : State) : (loadW v s).owner = s.owner := rfl
@[simp] theorem loadW_faulted (v : Word) (s : State) : (loadW v s).faulted = s.faulted := rfl
@[simp] theorem loadW_faultCause (v : Word) (s : State) : (loadW v s).faultCause = s.faultCause := rfl
@[simp] theorem loadW_faultHdr (v : Word) (s : State) : (loadW v s).faultHdr = s.faultHdr := rfl
@[simp] theorem loadW_cmd (v : Word) (s : State) : (loadW v s).cmd = s.cmd := rfl
@[simp] theorem loadW_resp (v : Word) (s : State) : (loadW v s).resp = s.resp := rfl
@[simp] theorem loadW_choices (v : Word) (s : State) : (loadW v s).choices = s.choices := rfl
@[simp] theorem loadW_genLatency (v : Word) (s : State) : (loadW v s).genLatency = s.genLatency := rfl
@[simp] theorem loadW_tableImpl (v : Word) (s : State) : (loadW v s).tableImpl = s.tableImpl := rfl
@[simp] theorem loadW_accCount (v : Word) (s : State) : (loadW v s).accCount = s.accCount := by
  simp [State.accCount]

/-! ### releaseW -/

@[simp] theorem releaseW_table (s : State) : (releaseW s).table = s.table := rfl
@[simp] theorem releaseW_tableReady (s : State) : (releaseW s).tableReady = s.tableReady := rfl
@[simp] theorem releaseW_acc (s : State) : (releaseW s).acc = s.acc := rfl
@[simp] theorem releaseW_w (s : State) : (releaseW s).w = Config.idleW s.choices := rfl
@[simp] theorem releaseW_genIdx (s : State) : (releaseW s).genIdx = s.genIdx := rfl
@[simp] theorem releaseW_genBit (s : State) : (releaseW s).genBit = s.genBit := rfl
@[simp] theorem releaseW_genW (s : State) : (releaseW s).genW = s.genW := rfl
@[simp] theorem releaseW_genLeft (s : State) : (releaseW s).genLeft = s.genLeft := rfl
@[simp] theorem releaseW_pstate (s : State) : (releaseW s).pstate = s.pstate := rfl
@[simp] theorem releaseW_hdrBuf (s : State) : (releaseW s).hdrBuf = s.hdrBuf := rfl
@[simp] theorem releaseW_hdr (s : State) : (releaseW s).hdr = s.hdr := rfl
@[simp] theorem releaseW_priorBuf (s : State) : (releaseW s).priorBuf = s.priorBuf := rfl
@[simp] theorem releaseW_payload (s : State) : (releaseW s).payload = s.payload := rfl
@[simp] theorem releaseW_remain (s : State) : (releaseW s).remain = s.remain := rfl
@[simp] theorem releaseW_owner (s : State) : (releaseW s).owner = s.owner := rfl
@[simp] theorem releaseW_faulted (s : State) : (releaseW s).faulted = s.faulted := rfl
@[simp] theorem releaseW_faultCause (s : State) : (releaseW s).faultCause = s.faultCause := rfl
@[simp] theorem releaseW_faultHdr (s : State) : (releaseW s).faultHdr = s.faultHdr := rfl
@[simp] theorem releaseW_cmd (s : State) : (releaseW s).cmd = s.cmd := rfl
@[simp] theorem releaseW_resp (s : State) : (releaseW s).resp = s.resp := rfl
@[simp] theorem releaseW_choices (s : State) : (releaseW s).choices = s.choices := rfl
@[simp] theorem releaseW_genLatency (s : State) : (releaseW s).genLatency = s.genLatency := rfl
@[simp] theorem releaseW_tableImpl (s : State) : (releaseW s).tableImpl = s.tableImpl := rfl
@[simp] theorem releaseW_accCount (s : State) : (releaseW s).accCount = s.accCount := by
  simp [State.accCount]

/-! ### feedW -/

@[simp] theorem feedW_table (data : List Byte) (s : State) : (feedW data s).table = s.table := rfl
@[simp] theorem feedW_tableReady (data : List Byte) (s : State) : (feedW data s).tableReady = s.tableReady := rfl
@[simp] theorem feedW_acc (data : List Byte) (s : State) : (feedW data s).acc = s.acc := rfl
@[simp] theorem feedW_w (data : List Byte) (s : State) : (feedW data s).w = feedWith (tableOf s.table) s.w data := rfl
@[simp] theorem feedW_genIdx (data : List Byte) (s : State) : (feedW data s).genIdx = s.genIdx := rfl
@[simp] theorem feedW_genBit (data : List Byte) (s : State) : (feedW data s).genBit = s.genBit := rfl
@[simp] theorem feedW_genW (data : List Byte) (s : State) : (feedW data s).genW = s.genW := rfl
@[simp] theorem feedW_genLeft (data : List Byte) (s : State) : (feedW data s).genLeft = s.genLeft := rfl
@[simp] theorem feedW_pstate (data : List Byte) (s : State) : (feedW data s).pstate = s.pstate := rfl
@[simp] theorem feedW_hdrBuf (data : List Byte) (s : State) : (feedW data s).hdrBuf = s.hdrBuf := rfl
@[simp] theorem feedW_hdr (data : List Byte) (s : State) : (feedW data s).hdr = s.hdr := rfl
@[simp] theorem feedW_priorBuf (data : List Byte) (s : State) : (feedW data s).priorBuf = s.priorBuf := rfl
@[simp] theorem feedW_payload (data : List Byte) (s : State) : (feedW data s).payload = s.payload := rfl
@[simp] theorem feedW_remain (data : List Byte) (s : State) : (feedW data s).remain = s.remain := rfl
@[simp] theorem feedW_owner (data : List Byte) (s : State) : (feedW data s).owner = s.owner := rfl
@[simp] theorem feedW_faulted (data : List Byte) (s : State) : (feedW data s).faulted = s.faulted := rfl
@[simp] theorem feedW_faultCause (data : List Byte) (s : State) : (feedW data s).faultCause = s.faultCause := rfl
@[simp] theorem feedW_faultHdr (data : List Byte) (s : State) : (feedW data s).faultHdr = s.faultHdr := rfl
@[simp] theorem feedW_cmd (data : List Byte) (s : State) : (feedW data s).cmd = s.cmd := rfl
@[simp] theorem feedW_resp (data : List Byte) (s : State) : (feedW data s).resp = s.resp := rfl
@[simp] theorem feedW_choices (data : List Byte) (s : State) : (feedW data s).choices = s.choices := rfl
@[simp] theorem feedW_genLatency (data : List Byte) (s : State) : (feedW data s).genLatency = s.genLatency := rfl
@[simp] theorem feedW_tableImpl (data : List Byte) (s : State) : (feedW data s).tableImpl = s.tableImpl := rfl
@[simp] theorem feedW_accCount (data : List Byte) (s : State) : (feedW data s).accCount = s.accCount := by
  simp [State.accCount]

/-! ### hostSend -/

@[simp] theorem hostSend_table (h : Nat) (bs : List Byte) (s : State) : (hostSend h bs s).table = s.table := rfl
@[simp] theorem hostSend_tableReady (h : Nat) (bs : List Byte) (s : State) : (hostSend h bs s).tableReady = s.tableReady := rfl
@[simp] theorem hostSend_acc (h : Nat) (bs : List Byte) (s : State) : (hostSend h bs s).acc = s.acc := rfl
@[simp] theorem hostSend_w (h : Nat) (bs : List Byte) (s : State) : (hostSend h bs s).w = s.w := rfl
@[simp] theorem hostSend_genIdx (h : Nat) (bs : List Byte) (s : State) : (hostSend h bs s).genIdx = s.genIdx := rfl
@[simp] theorem hostSend_genBit (h : Nat) (bs : List Byte) (s : State) : (hostSend h bs s).genBit = s.genBit := rfl
@[simp] theorem hostSend_genW (h : Nat) (bs : List Byte) (s : State) : (hostSend h bs s).genW = s.genW := rfl
@[simp] theorem hostSend_genLeft (h : Nat) (bs : List Byte) (s : State) : (hostSend h bs s).genLeft = s.genLeft := rfl
@[simp] theorem hostSend_pstate (h : Nat) (bs : List Byte) (s : State) : (hostSend h bs s).pstate = s.pstate := rfl
@[simp] theorem hostSend_hdrBuf (h : Nat) (bs : List Byte) (s : State) : (hostSend h bs s).hdrBuf = s.hdrBuf := rfl
@[simp] theorem hostSend_hdr (h : Nat) (bs : List Byte) (s : State) : (hostSend h bs s).hdr = s.hdr := rfl
@[simp] theorem hostSend_priorBuf (h : Nat) (bs : List Byte) (s : State) : (hostSend h bs s).priorBuf = s.priorBuf := rfl
@[simp] theorem hostSend_payload (h : Nat) (bs : List Byte) (s : State) : (hostSend h bs s).payload = s.payload := rfl
@[simp] theorem hostSend_remain (h : Nat) (bs : List Byte) (s : State) : (hostSend h bs s).remain = s.remain := rfl
@[simp] theorem hostSend_owner (h : Nat) (bs : List Byte) (s : State) : (hostSend h bs s).owner = s.owner := rfl
@[simp] theorem hostSend_faulted (h : Nat) (bs : List Byte) (s : State) : (hostSend h bs s).faulted = s.faulted := rfl
@[simp] theorem hostSend_faultCause (h : Nat) (bs : List Byte) (s : State) : (hostSend h bs s).faultCause = s.faultCause := rfl
@[simp] theorem hostSend_faultHdr (h : Nat) (bs : List Byte) (s : State) : (hostSend h bs s).faultHdr = s.faultHdr := rfl
@[simp] theorem hostSend_cmd (h : Nat) (bs : List Byte) (s : State) : (hostSend h bs s).cmd = s.cmd.append h bs := rfl
@[simp] theorem hostSend_resp (h : Nat) (bs : List Byte) (s : State) : (hostSend h bs s).resp = s.resp := rfl
@[simp] theorem hostSend_choices (h : Nat) (bs : List Byte) (s : State) : (hostSend h bs s).choices = s.choices := rfl
@[simp] theorem hostSend_genLatency (h : Nat) (bs : List Byte) (s : State) : (hostSend h bs s).genLatency = s.genLatency := rfl
@[simp] theorem hostSend_tableImpl (h : Nat) (bs : List Byte) (s : State) : (hostSend h bs s).tableImpl = s.tableImpl := rfl
@[simp] theorem hostSend_accCount (h : Nat) (bs : List Byte) (s : State) : (hostSend h bs s).accCount = s.accCount := by
  simp [State.accCount]

/-! ### hostTake -/

@[simp] theorem hostTake_table (h n : Nat) (s : State) : (hostTake h n s).table = s.table := rfl
@[simp] theorem hostTake_tableReady (h n : Nat) (s : State) : (hostTake h n s).tableReady = s.tableReady := rfl
@[simp] theorem hostTake_acc (h n : Nat) (s : State) : (hostTake h n s).acc = s.acc := rfl
@[simp] theorem hostTake_w (h n : Nat) (s : State) : (hostTake h n s).w = s.w := rfl
@[simp] theorem hostTake_genIdx (h n : Nat) (s : State) : (hostTake h n s).genIdx = s.genIdx := rfl
@[simp] theorem hostTake_genBit (h n : Nat) (s : State) : (hostTake h n s).genBit = s.genBit := rfl
@[simp] theorem hostTake_genW (h n : Nat) (s : State) : (hostTake h n s).genW = s.genW := rfl
@[simp] theorem hostTake_genLeft (h n : Nat) (s : State) : (hostTake h n s).genLeft = s.genLeft := rfl
@[simp] theorem hostTake_pstate (h n : Nat) (s : State) : (hostTake h n s).pstate = s.pstate := rfl
@[simp] theorem hostTake_hdrBuf (h n : Nat) (s : State) : (hostTake h n s).hdrBuf = s.hdrBuf := rfl
@[simp] theorem hostTake_hdr (h n : Nat) (s : State) : (hostTake h n s).hdr = s.hdr := rfl
@[simp] theorem hostTake_priorBuf (h n : Nat) (s : State) : (hostTake h n s).priorBuf = s.priorBuf := rfl
@[simp] theorem hostTake_payload (h n : Nat) (s : State) : (hostTake h n s).payload = s.payload := rfl
@[simp] theorem hostTake_remain (h n : Nat) (s : State) : (hostTake h n s).remain = s.remain := rfl
@[simp] theorem hostTake_owner (h n : Nat) (s : State) : (hostTake h n s).owner = s.owner := rfl
@[simp] theorem hostTake_faulted (h n : Nat) (s : State) : (hostTake h n s).faulted = s.faulted := rfl
@[simp] theorem hostTake_faultCause (h n : Nat) (s : State) : (hostTake h n s).faultCause = s.faultCause := rfl
@[simp] theorem hostTake_faultHdr (h n : Nat) (s : State) : (hostTake h n s).faultHdr = s.faultHdr := rfl
@[simp] theorem hostTake_cmd (h n : Nat) (s : State) : (hostTake h n s).cmd = s.cmd := rfl
@[simp] theorem hostTake_resp (h n : Nat) (s : State) : (hostTake h n s).resp = s.resp.drop h n := rfl
@[simp] theorem hostTake_choices (h n : Nat) (s : State) : (hostTake h n s).choices = s.choices := rfl
@[simp] theorem hostTake_genLatency (h n : Nat) (s : State) : (hostTake h n s).genLatency = s.genLatency := rfl
@[simp] theorem hostTake_tableImpl (h n : Nat) (s : State) : (hostTake h n s).tableImpl = s.tableImpl := rfl
@[simp] theorem hostTake_accCount (h n : Nat) (s : State) : (hostTake h n s).accCount = s.accCount := by
  simp [State.accCount]

/-! ### hardwareReset -/

@[simp] theorem hardwareReset_table (s : State) : (hardwareReset s).table = initialTable s.tableImpl := rfl
@[simp] theorem hardwareReset_tableReady (s : State) : (hardwareReset s).tableReady = false := rfl
@[simp] theorem hardwareReset_acc (s : State) : (hardwareReset s).acc = List.replicate s.accCount Config.initValue := rfl
@[simp] theorem hardwareReset_w (s : State) : (hardwareReset s).w = 0#32 := rfl
@[simp] theorem hardwareReset_genIdx (s : State) : (hardwareReset s).genIdx = 0 := rfl
@[simp] theorem hardwareReset_genBit (s : State) : (hardwareReset s).genBit = 0 := rfl
@[simp] theorem hardwareReset_genW (s : State) : (hardwareReset s).genW = 0#32 := rfl
@[simp] theorem hardwareReset_genLeft (s : State) : (hardwareReset s).genLeft = s.genLatency := rfl
@[simp] theorem hardwareReset_pstate (s : State) : (hardwareReset s).pstate = .idle := rfl
@[simp] theorem hardwareReset_hdrBuf (s : State) : (hardwareReset s).hdrBuf = [] := rfl
@[simp] theorem hardwareReset_hdr (s : State) : (hardwareReset s).hdr = 0#32 := rfl
@[simp] theorem hardwareReset_priorBuf (s : State) : (hardwareReset s).priorBuf = [] := rfl
@[simp] theorem hardwareReset_payload (s : State) : (hardwareReset s).payload = [] := rfl
@[simp] theorem hardwareReset_remain (s : State) : (hardwareReset s).remain = 0#24 := rfl
@[simp] theorem hardwareReset_owner (s : State) : (hardwareReset s).owner = none := rfl
@[simp] theorem hardwareReset_faulted (s : State) : (hardwareReset s).faulted = false := rfl
@[simp] theorem hardwareReset_faultCause (s : State) : (hardwareReset s).faultCause = 0#8 := rfl
@[simp] theorem hardwareReset_faultHdr (s : State) : (hardwareReset s).faultHdr = 0#32 := rfl
@[simp] theorem hardwareReset_cmd (s : State) : (hardwareReset s).cmd = s.cmd := rfl
@[simp] theorem hardwareReset_resp (s : State) : (hardwareReset s).resp = [] := rfl
@[simp] theorem hardwareReset_choices (s : State) : (hardwareReset s).choices = s.choices := rfl
@[simp] theorem hardwareReset_genLatency (s : State) : (hardwareReset s).genLatency = s.genLatency := rfl
@[simp] theorem hardwareReset_tableImpl (s : State) : (hardwareReset s).tableImpl = s.tableImpl := rfl
@[simp] theorem hardwareReset_accCount (s : State) : (hardwareReset s).accCount = s.accCount := by
  simp [State.accCount]

end Sys2Proof.Machine
end

