-- ==== Sys2Proof/Laws/Memory.lean ====
section
/-! SUPPORT. Laws of the table and of the streams: read after write, and that every operation keeps the canonical
form. -/

namespace Sys2Proof.Machine

/-! ### The table -/

theorem Memory.wfFrom_mono {lo lo' : Nat} {m : Memory} (h : lo' ≤ lo) (hm : m.wfFrom lo = true) :
    m.wfFrom lo' = true := by
  cases m with
  | nil => rfl
  | cons e m => simp only [Memory.wfFrom, Bool.and_eq_true, decide_eq_true_eq] at *; grind

/-- `MemRead` after `MemWrite` (20_memory.md R40, R41): the written index reads the value, every other index reads as
before. -/
theorem Memory.read_write (m : Memory) (i j : Nat) (v : Word) :
    (m.write i v).read j = if j = i then v else m.read j := by
  induction m with
  | nil => simp only [Memory.write, Memory.read]
  | cons e m ih =>
    simp only [Memory.write]
    split
    · simp only [Memory.read]
    · split
      · subst_vars
        simp only [Memory.read]
        split <;> rfl
      · simp only [Memory.read, ih]
        split
        · subst_vars; rw [if_neg (by omega)]
        · rfl

theorem Memory.wfFrom_write {m : Memory} {lo i : Nat} (v : Word) (hm : m.wfFrom lo = true) (hlo : lo ≤ i)
    (hi : i < Config.tableEntries) : (m.write i v).wfFrom lo = true := by
  induction m generalizing lo with
  | nil => simp [Memory.write, Memory.wfFrom, hlo, hi]
  | cons e m ih =>
    obtain ⟨k, u⟩ := e
    simp only [Memory.wfFrom, Bool.and_eq_true, decide_eq_true_eq] at hm
    obtain ⟨⟨h1, h2⟩, h3⟩ := hm
    simp only [Memory.write]
    split
    · simp only [Memory.wfFrom, Bool.and_eq_true, decide_eq_true_eq]
      refine ⟨⟨hlo, hi⟩, ⟨by omega, h2⟩, h3⟩
    · split
      · subst_vars
        simp only [Memory.wfFrom, Bool.and_eq_true, decide_eq_true_eq]
        exact ⟨⟨hlo, hi⟩, h3⟩
      · simp only [Memory.wfFrom, Bool.and_eq_true, decide_eq_true_eq]
        exact ⟨⟨h1, h2⟩, ih h3 (by omega)⟩

/-- `MemWrite` keeps the canonical form. -/
theorem Memory.wf_write {m : Memory} {i : Nat} (v : Word) (hm : m.wf = true) (hi : i < Config.tableEntries) :
    (m.write i v).wf = true :=
  Memory.wfFrom_write v hm (Nat.zero_le i) hi

/-! ### Streams -/

theorem Streams.wfFrom_mono {lo lo' : Nat} {m : Streams} (h : lo' ≤ lo) (hm : m.wfFrom lo = true) :
    m.wfFrom lo' = true := by
  cases m with
  | nil => rfl
  | cons e m => simp only [Streams.wfFrom, Bool.and_eq_true, decide_eq_true_eq] at *; grind

/-- A host below every listed one has no bytes. -/
theorem Streams.get_of_lt {m : Streams} {lo h : Nat} (hm : m.wfFrom lo = true) (hlt : h < lo) : m.get h = [] := by
  induction m generalizing lo with
  | nil => rfl
  | cons e m ih =>
    simp only [Streams.wfFrom, Bool.and_eq_true, decide_eq_true_eq] at hm
    simp only [Streams.get]
    rw [if_neg (by omega), ih hm.2 (by omega)]

theorem Streams.get_put_from {m : Streams} {lo : Nat} (hm : m.wfFrom lo = true) (h k : Nat) (bs : List Byte) :
    (m.put h bs).get k = if k = h then bs else m.get k := by
  induction m generalizing lo with
  | nil =>
    simp only [Streams.put]
    cases bs <;> simp [Streams.get]
  | cons e m ih =>
    obtain ⟨j, cs⟩ := e
    simp only [Streams.wfFrom, Bool.and_eq_true, decide_eq_true_eq] at hm
    simp only [Streams.put]
    split
    · cases bs with
      | nil =>
        have hh : Streams.get m h = [] := Streams.get_of_lt hm.2 (by omega)
        simp only [List.isEmpty_nil, if_true, Streams.get]
        by_cases hk : k = h
        · subst hk; rw [if_pos rfl, if_neg (by omega), hh]
        · rw [if_neg hk]
      | cons b bs => simp [Streams.get]
    · split
      · subst_vars
        cases bs with
        | nil =>
          simp only [List.isEmpty_nil, if_true, Streams.get]
          split
          · subst_vars; exact Streams.get_of_lt hm.2 (by omega)
          · rfl
        | cons b bs => simp only [List.isEmpty_cons, Bool.false_eq_true, if_false, Streams.get]; split <;> rfl
      · simp only [Streams.get]
        rw [ih hm.2]
        split
        · subst_vars; rw [if_neg (by omega)]
        · rfl

/-- What a host's bytes are after a `put`: the given ones for that host, as before for every other. -/
theorem Streams.get_put {m : Streams} (hm : m.wf = true) (h k : Nat) (bs : List Byte) :
    (m.put h bs).get k = if k = h then bs else m.get k :=
  Streams.get_put_from hm h k bs

/-- The same without the canonical form, when the bytes put are not empty. -/
theorem Streams.get_put_cons (m : Streams) (h k : Nat) (b : Byte) (bs : List Byte) :
    (m.put h (b :: bs)).get k = if k = h then b :: bs else m.get k := by
  induction m with
  | nil => simp [Streams.put, Streams.get]
  | cons e m ih =>
    simp only [Streams.put, List.isEmpty_cons, Bool.false_eq_true, if_false]
    split
    · simp only [Streams.get]
    · split
      · subst_vars; simp only [Streams.get]; split <;> rfl
      · simp only [Streams.get]
        rw [ih]
        split
        · subst_vars; rw [if_neg (by omega)]
        · rfl

theorem Streams.wfFrom_put {m : Streams} {lo h : Nat} (bs : List Byte) (hm : m.wfFrom lo = true) (hlo : lo ≤ h) :
    (m.put h bs).wfFrom lo = true := by
  induction m generalizing lo with
  | nil => cases bs <;> simp [Streams.put, Streams.wfFrom, hlo]
  | cons e m ih =>
    obtain ⟨k, cs⟩ := e
    have hm' := hm
    simp only [Streams.wfFrom, Bool.and_eq_true, decide_eq_true_eq] at hm
    obtain ⟨⟨h1, h2⟩, h3⟩ := hm
    simp only [Streams.put]
    split
    · cases bs with
      | nil => simpa using hm'
      | cons b bs =>
        simp only [List.isEmpty_cons, Bool.false_eq_true, if_false, Streams.wfFrom, Bool.and_eq_true,
          decide_eq_true_eq, Bool.not_false, and_true]
        exact ⟨hlo, ⟨by omega, h2⟩, h3⟩
    · split
      · subst_vars
        cases bs with
        | nil => simpa using Streams.wfFrom_mono (by omega) h3
        | cons b bs =>
          simp only [List.isEmpty_cons, Bool.false_eq_true, if_false, Streams.wfFrom, Bool.and_eq_true,
            decide_eq_true_eq, Bool.not_false, and_true]
          exact ⟨hlo, h3⟩
      · simp only [Streams.wfFrom, Bool.and_eq_true, decide_eq_true_eq]
        exact ⟨⟨h1, h2⟩, ih h3 (by omega)⟩

/-- `put` keeps the canonical form. -/
theorem Streams.wf_put {m : Streams} (h : Nat) (bs : List Byte) (hm : m.wf = true) : (m.put h bs).wf = true :=
  Streams.wfFrom_put bs hm (Nat.zero_le h)

theorem Streams.wf_append {m : Streams} (h : Nat) (bs : List Byte) (hm : m.wf = true) :
    (m.append h bs).wf = true := Streams.wf_put h _ hm

theorem Streams.wf_drop {m : Streams} (h n : Nat) (hm : m.wf = true) : (m.drop h n).wf = true :=
  Streams.wf_put h _ hm

/-- Appending at least one byte, to any streams. -/
theorem Streams.get_append_cons (m : Streams) (h k : Nat) (b : Byte) (bs : List Byte) :
    (m.append h (b :: bs)).get k = if k = h then m.get h ++ b :: bs else m.get k := by
  unfold Streams.append
  cases hg : m.get h with
  | nil => simpa using Streams.get_put_cons m h k b bs
  | cons c cs => simpa using Streams.get_put_cons m h k c (cs ++ b :: bs)

theorem Streams.get_append {m : Streams} (hm : m.wf = true) (h k : Nat) (bs : List Byte) :
    (m.append h bs).get k = if k = h then m.get h ++ bs else m.get k :=
  Streams.get_put hm h k _

theorem Streams.get_drop {m : Streams} (hm : m.wf = true) (h k n : Nat) :
    (m.drop h n).get k = if k = h then (m.get h).drop n else m.get k :=
  Streams.get_put hm h k _

/-- The last of two puts for one host counts. -/
theorem Streams.put_put_from {m : Streams} {lo : Nat} (hm : m.wfFrom lo = true) (h : Nat) (bs cs : List Byte) :
    (m.put h bs).put h cs = m.put h cs := by
  induction m generalizing lo with
  | nil => cases bs <;> cases cs <;> simp [Streams.put]
  | cons e m ih =>
    obtain ⟨k, ds⟩ := e
    simp only [Streams.wfFrom, Bool.and_eq_true, decide_eq_true_eq] at hm
    rcases Nat.lt_trichotomy h k with hlt | rfl | hgt
    · cases bs <;> cases cs <;> simp [Streams.put, hlt]
    · cases bs with
      | nil =>
        simp only [Streams.put, Nat.lt_irrefl, if_false, if_true, List.isEmpty_nil]
        cases m with
        | nil => cases cs <;> simp [Streams.put]
        | cons e m =>
          have h2 := hm.2
          simp only [Streams.wfFrom, Bool.and_eq_true, decide_eq_true_eq] at h2
          have hlt : h < e.1 := by omega
          cases cs <;> simp [Streams.put, hlt]
      | cons b bs => simp [Streams.put]
    · have h1 : ¬ h < k := by omega
      have h2 : h ≠ k := by omega
      simp [Streams.put, h1, h2, ih hm.2]

theorem Streams.put_put {m : Streams} (hm : m.wf = true) (h : Nat) (bs cs : List Byte) :
    (m.put h bs).put h cs = m.put h cs := Streams.put_put_from hm h bs cs

/-- Giving a host the bytes it has changes nothing. -/
theorem Streams.put_get_from {m : Streams} {lo : Nat} (hm : m.wfFrom lo = true) (h : Nat) : m.put h (m.get h) = m := by
  induction m generalizing lo with
  | nil => rfl
  | cons e m ih =>
    obtain ⟨k, bs⟩ := e
    simp only [Streams.wfFrom, Bool.and_eq_true, decide_eq_true_eq] at hm
    simp only [Streams.put, Streams.get]
    by_cases h1 : h < k
    · have hz := Streams.get_of_lt hm.2 (show h < k + 1 by omega)
      simp [h1, hz, show h ≠ k by omega]
    · rw [if_neg h1]
      by_cases h2 : h = k
      · have hne : bs.isEmpty = false := by simpa using hm.1.2
        subst h2; simp [hne]
      · simp [h2, ih hm.2]

theorem Streams.put_get {m : Streams} (hm : m.wf = true) (h : Nat) : m.put h (m.get h) = m :=
  Streams.put_get_from hm h

/-- A host is ready when it is listed with bytes. -/
theorem Streams.mem_ready_from {m : Streams} {lo : Nat} (hm : m.wfFrom lo = true) (h : Nat) :
    h ∈ m.ready ↔ m.get h ≠ [] := by
  induction m generalizing lo with
  | nil => simp [Streams.ready, Streams.get]
  | cons e m ih =>
    obtain ⟨k, bs⟩ := e
    simp only [Streams.wfFrom, Bool.and_eq_true, decide_eq_true_eq] at hm
    have hbs : bs ≠ [] := by simpa using hm.1.2
    have ih' := ih hm.2
    simp only [Streams.ready] at ih' ⊢
    simp only [Streams.get]
    by_cases hk : h = k
    · subst hk; simp [hm.1.2, hbs]
    · simp [hm.1.2, hk]
      simpa using ih'

theorem Streams.mem_ready {m : Streams} (hm : m.wf = true) (h : Nat) : h ∈ m.ready ↔ m.get h ≠ [] :=
  Streams.mem_ready_from hm h

end Sys2Proof.Machine
end

