-- ==== Sys2Proof/Laws/Table.lean ====
section
/-! SUPPORT. Laws of the bit step and of the finished table. -/

namespace Sys2Proof.Machine

theorem bitSteps_succ (n : Nat) (w : Word) : bitSteps (n + 1) w = bitStep (bitSteps n w) := by
  induction n generalizing w with
  | zero => rfl
  | succ n ih => rw [bitSteps, ih]; rfl

theorem bitSteps_add (m n : Nat) (w : Word) : bitSteps n (bitSteps m w) = bitSteps (m + n) w := by
  induction m generalizing w with
  | zero => simp [bitSteps]
  | succ m ih => rw [bitSteps, ih, Nat.add_right_comm, bitSteps]

/-- A bit step is linear (40_table_generator.md R104). -/
theorem bitStep_xor (a b : Word) : bitStep (a ^^^ b) = bitStep a ^^^ bitStep b := by
  unfold bitStep
  simp only [BitVec.getMsbD_xor]
  cases a.getMsbD 0 <;> cases b.getMsbD 0 <;> simp [BitVec.shiftLeft_xor_distrib]
  · ac_rfl
  · ac_rfl
  · generalize a <<< 1 = x
    generalize b <<< 1 = y
    rw [BitVec.xor_comm y, ← BitVec.xor_assoc, BitVec.xor_assoc x, BitVec.xor_self, BitVec.xor_zero]

theorem bitSteps_xor (n : Nat) (a b : Word) : bitSteps n (a ^^^ b) = bitSteps n a ^^^ bitSteps n b := by
  induction n generalizing a b with
  | zero => rfl
  | succ n ih => rw [bitSteps, bitStep_xor, ih]; rfl

theorem seed_xor (i j : Byte) : seed (i ^^^ j) = seed i ^^^ seed j := by
  simp [seed, BitVec.shiftLeft_xor_distrib]

theorem entriesFrom_length (i count : Nat) : (entriesFrom i count).length = count := by
  induction count generalizing i with
  | zero => rfl
  | succ n ih => simp [entriesFrom, ih]

/-- Reading an index that a run of finished entries holds. -/
theorem read_entriesFrom {i count j : Nat} (h1 : i ≤ j) (h2 : j < i + count) :
    Memory.read (entriesFrom i count) j = tableEntry (BitVec.ofNat 8 j) := by
  induction count generalizing i with
  | zero => omega
  | succ n ih =>
    simp only [entriesFrom, Memory.read]
    split
    · subst_vars; rfl
    · exact ih (by omega) (by omega)

theorem wfFrom_entriesFrom {lo i count : Nat} (h1 : lo ≤ i) (h2 : i + count ≤ Config.tableEntries) :
    Memory.wfFrom lo (entriesFrom i count) = true := by
  induction count generalizing lo i with
  | zero => rfl
  | succ n ih =>
    simp only [entriesFrom, Memory.wfFrom, Bool.and_eq_true, decide_eq_true_eq]
    exact ⟨⟨h1, by omega⟩, ih (Nat.le_refl _) (by omega)⟩

/-- Writing the next entry extends the run of finished entries by one. -/
theorem write_entriesFrom (i count : Nat) :
    Memory.write (entriesFrom i count) (i + count) (tableEntry (BitVec.ofNat 8 (i + count))) =
      entriesFrom i (count + 1) := by
  induction count generalizing i with
  | zero => rfl
  | succ n ih =>
    rw [entriesFrom, Memory.write, if_neg (by omega), if_neg (by omega)]
    rw [show i + (n + 1) = i + 1 + n by omega, ih (i + 1)]
    rfl

theorem builtTable_wf : Memory.wf builtTable = true :=
  wfFrom_entriesFrom (Nat.le_refl 0) (by simp)

/-- The finished table holds `TableEntry(i)` at every index (40_table_generator.md R102). -/
theorem tableOf_builtTable (i : Byte) : tableOf builtTable i = tableEntry i := by
  have h : i.toNat < 256 := i.isLt
  rw [tableOf, builtTable, read_entriesFrom (Nat.zero_le _) (by simpa [Config.tableEntries] using h)]
  simp

/-- The datapath over a table that holds every `TableEntry(i)` is the one over the finished table. -/
theorem feedWith_congr {T T' : Byte → Word} (h : ∀ i, T i = T' i) (w : Word) (data : List Byte) :
    feedWith T w data = feedWith T' w data := by
  rw [show T = T' from funext h]

theorem feedWith_append (T : Byte → Word) (w : Word) (s1 s2 : List Byte) :
    feedWith T w (s1 ++ s2) = feedWith T (feedWith T w s1) s2 := by
  simp [feedWith, List.foldl_append]

end Sys2Proof.Machine
end

