-- ==== Sys2Proof/Laws/Generator.lean ====
section
/-! SUPPORT. Laws of the generator: what its actions change, that they keep its invariant, and that its last step
finishes the table. -/

namespace Sys2Proof.Machine

/-! ### Frames: only the table and the generator's state move -/

/-- `t` differs from `s` at most in the table, `TABLE_READY` and the generator's state. -/
def GenFrame (s t : State) : Prop :=
  t = { s with
    table := t.table, tableReady := t.tableReady, genIdx := t.genIdx, genBit := t.genBit, genW := t.genW,
    genLeft := t.genLeft }

theorem GenFrame.refl (s : State) : GenFrame s s := rfl

theorem GenFrame.trans {s t u : State} (h1 : GenFrame s t) (h2 : GenFrame t u) : GenFrame s u := by
  unfold GenFrame at *
  rw [h1] at h2
  exact h2

theorem genTick_frame (s : State) : GenFrame s (genTick s) := by
  unfold genTick
  split
  · split <;> rfl
  · rfl

theorem genEntries_frame (n : Nat) (s : State) : GenFrame s (genEntries n s) := by
  induction n generalizing s with
  | zero => rfl
  | succ n ih => exact GenFrame.trans (t := genEntry s) rfl (ih (genEntry s))

theorem genStep_frame (s : State) : GenFrame s (genStep s) := by
  unfold genStep
  split
  · exact GenFrame.trans (genEntries_frame _ s) rfl
  · split
    · rfl
    · exact GenFrame.trans (t := { s with genLeft := s.genLeft - 1 }) rfl (genTick_frame _)

/-! ### The entry in progress -/

/-- The work value of the entry in progress: `GEN_BIT` bit steps of its seed (40_table_generator.md R101). -/
def EntryOk (s : State) : Prop :=
  0 < s.genBit.val → s.genW = bitSteps s.genBit.val (seed (BitVec.ofNat 8 s.genIdx.val))

theorem genValue_eq {s : State} (h : EntryOk s) :
    genValue s = bitSteps s.genBit.val (seed (BitVec.ofNat 8 s.genIdx.val)) := by
  unfold genValue
  by_cases hb : s.genBit.val = 0
  · simp [hb, bitSteps]
  · rw [if_neg hb, h (by omega)]

/-- What is left of an entry's bit steps ends in `TableEntry(GEN_IDX)`. -/
theorem entry_finish {s : State} (h : EntryOk s) :
    bitSteps (8 - s.genBit.val) (genValue s) = tableEntry (BitVec.ofNat 8 s.genIdx.val) := by
  have hb : s.genBit.val ≤ 8 := by have := s.genBit.isLt; omega
  rw [genValue_eq h, bitSteps_add, Nat.add_sub_cancel' hb]
  rfl

/-- Writing every entry that is left, with those before it written, gives the finished table. -/
theorem genEntries_table {n : Nat} {s : State} (he : EntryOk s) (ht : s.table = entriesFrom 0 s.genIdx.val)
    (hn : s.genIdx.val + n = Config.tableEntries) : (genEntries n s).table = builtTable := by
  induction n generalizing s with
  | zero =>
    rw [Nat.add_zero] at hn
    rw [genEntries, ht, hn]
    rfl
  | succ n ih =>
    have hlt : s.genIdx.val + 1 < 257 := by simp only [Config.tableEntries] at hn; omega
    have hidx : (genEntry s).genIdx.val = s.genIdx.val + 1 := by
      simp [genEntry, Fin.ofNat, Nat.mod_eq_of_lt hlt]
    rw [genEntries]
    apply ih
    · intro hpos; exact absurd hpos (by simp [genEntry])
    · rw [hidx]
      simp only [genEntry]
      rw [entry_finish he, ht]
      have := write_entriesFrom 0 s.genIdx.val
      simpa using this
    · rw [hidx]; omega

/-! ### One step from the generator's invariant -/

/-- The last step finishes the table (40_table_generator.md R101, R102). -/
theorem genStep_last {s : State} (h : s.GenOk) (hl : s.genLeft ≤ 1) :
    (genStep s).tableReady = true ∧ (genStep s).table = builtTable := by
  unfold genStep
  rw [if_pos hl]
  refine ⟨rfl, ?_⟩
  obtain ⟨-, -, h⟩ := h
  cases hi : s.tableImpl with
  | rom =>
    simp only [hi] at h
    simp only [entriesLeft, hi, genEntries]
    exact h
  | generated =>
    simp only [hi] at h
    obtain ⟨h1, h2, h3⟩ := h
    simp only [entriesLeft, hi]
    exact genEntries_table h3 h2 (by omega)

/-- Any earlier step counts down, does not set `TABLE_READY`, and keeps the generator's invariant. -/
theorem genStep_earlier {s : State} (h : s.GenOk) (hr : s.tableReady = false) (hl : ¬ s.genLeft ≤ 1) :
    (genStep s).tableReady = false ∧ (genStep s).genLeft = s.genLeft - 1 ∧ (genStep s).GenOk := by
  unfold genStep
  rw [if_neg hl]
  split
  · exact ⟨hr, rfl, h⟩
  · next hw =>
    obtain ⟨hp, hf, h⟩ := h
    cases hi : s.tableImpl with
    | rom => exact absurd (by simp [genWork, entriesLeft, hi]; omega) hw
    | generated =>
      simp only [hi] at h
      obtain ⟨h1, h2, h3⟩ := h
      have hge : s.genLeft ≤ genWork s := by omega
      simp only [genWork, entriesLeft, hi] at hge
      unfold genTick
      rw [if_pos (show ({ s with genLeft := s.genLeft - 1 } : State).genIdx.val < _ from h1)]
      split
      · next hb =>
        refine ⟨hr, rfl, hp, hf, ?_⟩
        refine ⟨h1, h2, fun _ => ?_⟩
        have hb' : s.genBit.val + 1 < 9 := Nat.succ_lt_succ hb
        simp only [Fin.ofNat, Nat.mod_eq_of_lt hb', bitSteps_succ]
        congr 1
        exact genValue_eq (s := { s with genLeft := s.genLeft - 1 }) h3
      · next hb =>
        have hb8 : s.genBit.val = 8 := by
          have := s.genBit.isLt
          simp only [Nat.not_lt] at hb
          omega
        have hidx : s.genIdx.val + 1 < Config.tableEntries := by omega
        have hmod : (s.genIdx.val + 1) % 257 = s.genIdx.val + 1 :=
          Nat.mod_eq_of_lt (by simp only [Config.tableEntries] at hidx; omega)
        refine ⟨by simp; omega, rfl, hp, hf, ?_⟩
        simp only [Fin.ofNat, hmod]
        refine ⟨hidx, ?_, fun hpos => absurd hpos (by simp)⟩
        have hw : s.genW = tableEntry (BitVec.ofNat 8 s.genIdx.val) := by
          rw [h3 (by omega), hb8]; rfl
        rw [h2, hw]
        simpa using write_entriesFrom 0 s.genIdx.val

/-- The generator's invariant holds right after hardware reset. -/
theorem hardwareReset_genOk (s : State) : (hardwareReset s).GenOk := by
  refine ⟨rfl, rfl, ?_⟩
  cases hi : s.tableImpl with
  | rom => simp [hi, initialTable]
  | generated => simp [hi, initialTable, entriesFrom, Config.tableEntries]

end Sys2Proof.Machine
end

