-- ==== Sys2Proof/Laws/Ops.lean ====
section
/-! SUPPORT. What each shared operation can do, once: responding, taking a fault, selecting an accumulator, the
accumulators, and the meaning of a legal command. -/

namespace Sys2Proof.Machine

/-! ### respond (30_encoding.md R75) -/

theorem respond_of_owner {s : State} {h : Nat} (bytes : List Byte) (ho : s.owner = some h) :
    respond bytes s = .next { s with resp := s.resp.append h bytes } := by
  simp [respond, ho]

theorem respond_next {s t : State} {bytes : List Byte} (hr : respond bytes s = .next t) :
    ∃ h, s.owner = some h ∧ t = { s with resp := s.resp.append h bytes } := by
  unfold respond at hr
  split at hr
  · next h ho => exact ⟨h, ho, by cases hr; rfl⟩
  · cases hr

/-! ### raiseFault (60_exceptions.md R173) -/

theorem raiseFault_of_owner {s : State} {h : Nat} (c : Cause) (hdr : Word) (ho : s.owner = some h) :
    raiseFault c hdr s = .next { s with
      faulted := true, faultCause := c.code, faultHdr := hdr, pstate := .idle,
      resp := s.resp.append h [c.code] } := by
  simp [raiseFault, respond, ho]

theorem raiseFault_next {s t : State} {c : Cause} {hdr : Word} (hr : raiseFault c hdr s = .next t) :
    ∃ h, s.owner = some h ∧ t = { s with
      faulted := true, faultCause := c.code, faultHdr := hdr, pstate := .idle,
      resp := s.resp.append h [c.code] } := by
  obtain ⟨h, ho, rfl⟩ := respond_next hr
  exact ⟨h, ho, rfl⟩

/-! ### Accumulators (10_state.md R22, 30_encoding.md R71) -/

theorem withAcc_of_lt {a : BitVec 4} {s : State} (hdr : Word) (body : Result) (h : a.toNat < s.accCount) :
    withAcc a hdr s body = body := if_pos h

theorem withAcc_of_ge {a : BitVec 4} {s : State} (hdr : Word) (body : Result) (h : s.accCount ≤ a.toNat) :
    withAcc a hdr s body = raiseFault .badAsel hdr s := if_neg (by omega)

/-- `ACC[b]` after `ACC[a] <- v`. -/
theorem accRead_set {s : State} {a : BitVec 4} (b : BitVec 4) (v : Word) (h : a.toNat < s.accCount) :
    accRead b { s with acc := s.acc.set a.toNat v } = if b = a then v else accRead b s := by
  simp only [accRead, List.getD_eq_getElem?_getD, List.getElem?_set]
  simp only [State.accCount] at h
  by_cases hb : b = a
  · subst hb; simp [h]
  · have : ¬ a.toNat = b.toNat := fun hc => hb (BitVec.eq_of_toNat_eq hc.symm)
    simp [hb, this]

theorem accRead_accWrite {s : State} {a : BitVec 4} (b : BitVec 4) (v : Word) (h : a.toNat < s.accCount) :
    accRead b (accWrite a v s) = if b = a then v else accRead b s := accRead_set b v h

/-! ### The meaning of a command -/

/-- The accumulator a command names exists. -/
theorem lt_of_accOk {n : Nat} {i : Instr} {a : BitVec 4} (hw : i.accOk n = true) (ha : i.accOf = some a) :
    a.toNat < n := by
  simpa only [Instr.accOk, ha, decide_eq_true_eq] using hw

theorem accOk_of_wf {n : Nat} {i : Instr} (hw : i.wf n = true) : i.accOk n = true := by
  simp only [Instr.wf, Bool.and_eq_true] at hw
  exact hw.2

/-- Everything a command does whose accumulator exists, whatever the response streams `r` hold: it responds status 0x00
and some bytes, and of the state only `ACC` and `W` can have changed before that; `ACC` keeps its length, and changes only
in the accumulator a `RESET` or `WRITE` names. Neither the bytes nor the changes depend on `r`. -/
theorem exec_of_accOk_resp {s : State} {i : Instr} (hw : i.accOk s.accCount = true) :
    ∃ (bytes : List Byte) (acc : List Word) (w : Word),
      (∀ r : Streams, exec i { s with resp := r } = respond (0x00#8 :: bytes) { s with acc := acc, w := w, resp := r }) ∧
      (acc = s.acc ∨ ∃ (a : BitVec 4) (v : Word), i.accOf = some a ∧ acc = s.acc.set a.toNat v ∧
        (i.opcode = .reset ∨ i.opcode = .write)) := by
  cases i with
  | checksum data =>
    exact ⟨be32 (updateWith (tableOf s.table) Config.initValue data), s.acc, Config.idleW s.choices, fun _ => rfl, .inl rfl⟩
  | update prior data =>
    exact ⟨be32 (updateWith (tableOf s.table) prior data), s.acc, Config.idleW s.choices, fun _ => rfl, .inl rfl⟩
  | reset a =>
    exact ⟨[], s.acc.set a.toNat Config.initValue, s.w, fun _ => withAcc_of_lt _ _ (lt_of_accOk hw rfl),
      .inr ⟨a, _, rfl, rfl, .inl rfl⟩⟩
  | write a data =>
    exact ⟨be32 (lenWord data), s.acc.set a.toNat (updateWith (tableOf s.table) (accRead a s) data),
      Config.idleW s.choices, fun _ => withAcc_of_lt _ _ (lt_of_accOk hw rfl), .inr ⟨a, _, rfl, rfl, .inr rfl⟩⟩
  | sum32 a => exact ⟨be32 (accRead a s), s.acc, s.w, fun _ => withAcc_of_lt _ _ (lt_of_accOk hw rfl), .inl rfl⟩
  | sum a pre =>
    exact ⟨pre ++ be32 (accRead a s), s.acc, s.w, fun _ => withAcc_of_lt _ _ (lt_of_accOk hw rfl), .inl rfl⟩
  | size => exact ⟨be32 (BitVec.ofNat 32 Config.digestSize), s.acc, s.w, fun _ => rfl, .inl rfl⟩
  | bsize => exact ⟨be32 (BitVec.ofNat 32 Config.blockSize), s.acc, s.w, fun _ => rfl, .inl rfl⟩
  | tblrd idx => exact ⟨be32 (tableOf s.table idx), s.acc, s.w, fun _ => rfl, .inl rfl⟩

/-- The same for the streams the state holds. -/
theorem exec_of_accOk {s : State} {i : Instr} (hw : i.accOk s.accCount = true) :
    ∃ (bytes : List Byte) (acc : List Word) (w : Word),
      exec i s = respond (0x00#8 :: bytes) { s with acc := acc, w := w } ∧
      (acc = s.acc ∨ ∃ (a : BitVec 4) (v : Word), i.accOf = some a ∧ acc = s.acc.set a.toNat v ∧
        (i.opcode = .reset ∨ i.opcode = .write)) := by
  obtain ⟨bytes, acc, w, hx, hacc⟩ := exec_of_accOk_resp hw
  exact ⟨bytes, acc, w, hx s.resp, hacc⟩

/-- The next state of such a command: only `ACC`, `W` and the owner's responses can differ. -/
theorem exec_next {s t : State} {i : Instr} (hw : i.accOk s.accCount = true) (hx : exec i s = .next t) :
    ∃ (h : Nat) (bytes : List Byte) (acc : List Word) (w : Word), s.owner = some h ∧
      t = { s with acc := acc, w := w, resp := s.resp.append h (0x00#8 :: bytes) } ∧
      (acc = s.acc ∨ ∃ (a : BitVec 4) (v : Word), i.accOf = some a ∧ acc = s.acc.set a.toNat v ∧
        (i.opcode = .reset ∨ i.opcode = .write)) := by
  obtain ⟨bytes, acc, w, he, hacc⟩ := exec_of_accOk hw
  rw [he] at hx
  obtain ⟨h, ho, rfl⟩ := respond_next hx
  exact ⟨h, bytes, acc, w, ho, rfl, hacc⟩

end Sys2Proof.Machine
end

