-- ==== Sys2Proof/Laws/PerInstr.lean ====
section
/-! SUPPORT. Statements about every command as syntax, one lemma per constructor. -/

namespace Sys2Proof.Laws

/-- The header of a command has the fields of 30_encoding.md R61 to R64, and the header decoder of R72 accepts it exactly
when the accumulator it names exists. -/
def HeaderFields.Statement (i : Instr) : Prop :=
  opcField i.header = i.opcode.code ∧ aselField i.header = i.accOf.getD 0#4 ∧
    ∀ n : Nat, i.lenOk = true → (decodeHeader n i.header = .legal i.opcode ↔ i.accOk n = true)

/-- The packet of a command is its 4 header bytes, its `PRIOR` bytes and its payload, in this order
(30_encoding.md R60). -/
def PacketLayout.Statement (i : Instr) : Prop :=
  (encode i).take 4 = be32 i.header ∧ ((encode i).drop 4).take i.opcode.priorLen = i.priorBytes ∧
    (encode i).drop (4 + i.opcode.priorLen) = i.payload

theorem HeaderFields.of (i : Instr) : HeaderFields.Statement i := by
  refine ⟨opcField_header i, aselField_header i, fun n hl => ⟨fun hd => ?_, fun ha => ?_⟩⟩
  · have hlt := (decodeHeader_legal_iff.mp hd).2.2
    rw [aselField_header] at hlt
    cases i <;> simp_all [Instr.accOk, Instr.accOf, Instr.opcode, Opcode.usesAsel, Instr.asel]
  · exact decodeHeader_header (by rw [Instr.wf, hl, ha]; rfl)

theorem PacketLayout.of (i : Instr) : PacketLayout.Statement i := by
  have h4 : (be32 i.header).length = 4 := be32_length _
  have hp := priorBytes_length i
  refine ⟨?_, ?_, ?_⟩
  · rw [encode, List.append_assoc, List.take_left' h4]
  · rw [encode, List.append_assoc, List.drop_left' h4, List.take_left' hp]
  · rw [encode, List.drop_left' (by rw [List.length_append, h4, hp])]

theorem HeaderFields.checksum (data : List Byte) : HeaderFields.Statement (.checksum data) := HeaderFields.of _
theorem HeaderFields.update (prior : Word) (data : List Byte) : HeaderFields.Statement (.update prior data) := HeaderFields.of _
theorem HeaderFields.reset (a : BitVec 4) : HeaderFields.Statement (.reset a) := HeaderFields.of _
theorem HeaderFields.write (a : BitVec 4) (data : List Byte) : HeaderFields.Statement (.write a data) := HeaderFields.of _
theorem HeaderFields.sum32 (a : BitVec 4) : HeaderFields.Statement (.sum32 a) := HeaderFields.of _
theorem HeaderFields.sum (a : BitVec 4) (pre : List Byte) : HeaderFields.Statement (.sum a pre) := HeaderFields.of _
theorem HeaderFields.size : HeaderFields.Statement .size := HeaderFields.of _
theorem HeaderFields.bsize : HeaderFields.Statement .bsize := HeaderFields.of _
theorem HeaderFields.tblrd (idx : Byte) : HeaderFields.Statement (.tblrd idx) := HeaderFields.of _

theorem PacketLayout.checksum (data : List Byte) : PacketLayout.Statement (.checksum data) := PacketLayout.of _
theorem PacketLayout.update (prior : Word) (data : List Byte) : PacketLayout.Statement (.update prior data) := PacketLayout.of _
theorem PacketLayout.reset (a : BitVec 4) : PacketLayout.Statement (.reset a) := PacketLayout.of _
theorem PacketLayout.write (a : BitVec 4) (data : List Byte) : PacketLayout.Statement (.write a data) := PacketLayout.of _
theorem PacketLayout.sum32 (a : BitVec 4) : PacketLayout.Statement (.sum32 a) := PacketLayout.of _
theorem PacketLayout.sum (a : BitVec 4) (pre : List Byte) : PacketLayout.Statement (.sum a pre) := PacketLayout.of _
theorem PacketLayout.size : PacketLayout.Statement .size := PacketLayout.of _
theorem PacketLayout.bsize : PacketLayout.Statement .bsize := PacketLayout.of _
theorem PacketLayout.tblrd (idx : Byte) : PacketLayout.Statement (.tblrd idx) := PacketLayout.of _

end Sys2Proof.Laws
end

