-- ==== Sys2Proof/Laws/Step.lean ====
section
/-! SUPPORT. Everything a step can do, said once: `AcceptCase` lists the transitions of acceptance, `step_cases` adds the
frozen CORE and the generator. -/

namespace Sys2Proof.Machine

/-! ### Taking a byte -/

theorem takeByte_some {s : State} {h : Nat} {b : Byte} {rest : List Byte} (ho : s.owner = some h)
    (hg : s.cmd.get h = b :: rest) : takeByte s = some (b, { s with cmd := s.cmd.put h rest }) := by
  simp [takeByte, ho, hg]

theorem takeByte_none {s : State} {h : Nat} (ho : s.owner = some h) (hg : s.cmd.get h = []) : takeByte s = none := by
  simp [takeByte, ho, hg]

theorem takeByte_cases {s t : State} {b : Byte} (hb : takeByte s = some (b, t)) :
    ∃ (h : Nat) (rest : List Byte), s.owner = some h ∧ s.cmd.get h = b :: rest ∧
      t = { s with cmd := s.cmd.put h rest } := by
  unfold takeByte at hb
  split at hb
  · cases hb
  · next h ho =>
    split at hb
    · cases hb
    · next c rest hg =>
      simp only [Option.some.injEq, Prod.mk.injEq] at hb
      obtain ⟨rfl, rfl⟩ := hb
      exact ⟨h, rest, ho, hg, rfl⟩

/-! ### Choosing a host -/

/-- The host chosen is one of those that have a byte. -/
theorem chooseHost_mem {k h : Nat} {hs : List Nat} (hc : chooseHost k hs = some h) : h ∈ hs := by
  match hs with
  | [] => simp [chooseHost] at hc
  | [a] => simp [chooseHost] at hc; simp [hc]
  | a :: b :: rest => exact List.mem_of_getElem? hc

/-- Where there is a host with a byte, one is chosen. -/
theorem chooseHost_isSome (k : Nat) {hs : List Nat} (hne : hs ≠ []) : ∃ h, chooseHost k hs = some h := by
  match hs with
  | [] => exact absurd rfl hne
  | [a] => exact ⟨a, rfl⟩
  | a :: b :: rest =>
    have hlt : Config.arbiter k % (rest.length + 2) < (a :: b :: rest).length := Nat.mod_lt _ (by omega)
    exact ⟨_, List.getElem?_eq_getElem hlt⟩

/-! ### Executing -/

theorem execute_legal {s : State} {op : Opcode} (hd : decodeHeader s.accCount s.hdr = .legal op) :
    execute s = exec (operands op s.hdr s.priorBuf s.payload) { s with pstate := .idle } := by
  simp [execute, hd]

theorem execute_illegal {s : State} {c : Cause} (hd : decodeHeader s.accCount s.hdr = .illegal c) :
    execute s = raiseFault c s.hdr s := by
  simp [execute, hd]

/-- The commands whose packets end with the header. -/
def endsWithHeader : Opcode → Bool
  | .checksum => false
  | .update => false
  | .reset => true
  | .write => false
  | .sum32 => true
  | .sum => false
  | .size => true
  | .bsize => true
  | .tblrd => true

/-! ### The transitions -/

/-- The state once the fourth header byte `b` of host `h` has been taken. -/
def headerState (h : Nat) (rest : List Byte) (b0 b1 b2 b3 : Byte) (s : State) : State :=
  { s with hdrBuf := [b0, b1, b2, b3], hdr := be32inv b0 b1 b2 b3, cmd := s.cmd.put h rest }

/-- The transitions of acceptance that answer a next state (30_encoding.md R74). -/
inductive AcceptCase (s t : State) : Prop where
  | hold (ht : t = s)
  | chosen (h : Nat) (hp : s.pstate = .idle) (hc : chooseHost s.choices s.cmd.ready = some h)
      (ht : t = { s with owner := some h, pstate := .hdr, hdrBuf := [], choices := s.choices + 1 })
  | hdrByte (h : Nat) (b : Byte) (rest : List Byte) (hp : s.pstate = .hdr) (ho : s.owner = some h)
      (hg : s.cmd.get h = b :: rest) (hl : s.hdrBuf.length ≠ 3)
      (ht : t = { s with hdrBuf := s.hdrBuf ++ [b], cmd := s.cmd.put h rest })
  | illegal (h : Nat) (b0 b1 b2 b3 : Byte) (rest : List Byte) (c : Cause) (hp : s.pstate = .hdr)
      (ho : s.owner = some h) (hg : s.cmd.get h = b3 :: rest) (hb : s.hdrBuf = [b0, b1, b2])
      (hd : decodeHeader s.accCount (be32inv b0 b1 b2 b3) = .illegal c)
      (ht : t = { headerState h rest b0 b1 b2 b3 s with
        faulted := true, faultCause := c.code, faultHdr := be32inv b0 b1 b2 b3, pstate := .idle,
        resp := s.resp.append h [c.code] })
  | toPrior (h : Nat) (b0 b1 b2 b3 : Byte) (rest : List Byte) (hp : s.pstate = .hdr)
      (ho : s.owner = some h) (hg : s.cmd.get h = b3 :: rest) (hb : s.hdrBuf = [b0, b1, b2])
      (hd : decodeHeader s.accCount (be32inv b0 b1 b2 b3) = .legal .update)
      (ht : t = { headerState h rest b0 b1 b2 b3 s with pstate := .prior, priorBuf := [] })
  | toData (h : Nat) (b0 b1 b2 b3 : Byte) (rest : List Byte) (hp : s.pstate = .hdr)
      (ho : s.owner = some h) (hg : s.cmd.get h = b3 :: rest) (hb : s.hdrBuf = [b0, b1, b2])
      (hd : decodeHeader s.accCount (be32inv b0 b1 b2 b3) = .legal .checksum ∨
        decodeHeader s.accCount (be32inv b0 b1 b2 b3) = .legal .write)
      (ht : t = { headerState h rest b0 b1 b2 b3 s with
        pstate := .data, remain := immField (be32inv b0 b1 b2 b3), payload := [] })
  | toPrefix (h : Nat) (b0 b1 b2 b3 : Byte) (rest : List Byte) (hp : s.pstate = .hdr)
      (ho : s.owner = some h) (hg : s.cmd.get h = b3 :: rest) (hb : s.hdrBuf = [b0, b1, b2])
      (hd : decodeHeader s.accCount (be32inv b0 b1 b2 b3) = .legal .sum)
      (ht : t = { headerState h rest b0 b1 b2 b3 s with
        pstate := .pfx, remain := immField (be32inv b0 b1 b2 b3), payload := [] })
  | atHeader (h : Nat) (b0 b1 b2 b3 : Byte) (rest : List Byte) (op : Opcode) (hp : s.pstate = .hdr)
      (ho : s.owner = some h) (hg : s.cmd.get h = b3 :: rest) (hb : s.hdrBuf = [b0, b1, b2])
      (hd : decodeHeader s.accCount (be32inv b0 b1 b2 b3) = .legal op) (he : endsWithHeader op = true)
      (hx : exec (operands op (be32inv b0 b1 b2 b3) s.priorBuf s.payload)
        { headerState h rest b0 b1 b2 b3 s with pstate := .idle } = .next t)
  | priorByte (h : Nat) (b : Byte) (rest : List Byte) (hp : s.pstate = .prior) (ho : s.owner = some h)
      (hg : s.cmd.get h = b :: rest) (hl : s.priorBuf.length ≠ 3)
      (ht : t = { s with priorBuf := s.priorBuf ++ [b], cmd := s.cmd.put h rest })
  | priorDone (h : Nat) (b : Byte) (rest : List Byte) (hp : s.pstate = .prior) (ho : s.owner = some h)
      (hg : s.cmd.get h = b :: rest) (hl : s.priorBuf.length = 3)
      (ht : t = { s with
        priorBuf := s.priorBuf ++ [b], cmd := s.cmd.put h rest, pstate := .data,
        remain := immField s.hdr, payload := [] })
  | payloadByte (h : Nat) (b : Byte) (rest : List Byte) (hp : s.pstate = .data ∨ s.pstate = .pfx)
      (ho : s.owner = some h) (hg : s.cmd.get h = b :: rest) (hr : s.remain ≠ 0#24)
      (ht : t = { s with payload := s.payload ++ [b], cmd := s.cmd.put h rest, remain := s.remain - 1#24 })
  | atPayload (op : Opcode) (hp : s.pstate = .data ∨ s.pstate = .pfx) (hr : s.remain = 0#24)
      (hd : decodeHeader s.accCount s.hdr = .legal op)
      (hx : exec (operands op s.hdr s.priorBuf s.payload) { s with pstate := .idle } = .next t)
  | illegalPayload (h : Nat) (c : Cause) (hp : s.pstate = .data ∨ s.pstate = .pfx) (hr : s.remain = 0#24)
      (ho : s.owner = some h) (hd : decodeHeader s.accCount s.hdr = .illegal c)
      (ht : t = { s with
        faulted := true, faultCause := c.code, faultHdr := s.hdr, pstate := .idle,
        resp := s.resp.append h [c.code] })

theorem headerArrived_cases {s t : State} {h : Nat} {b0 b1 b2 b3 : Byte} {rest : List Byte}
    (hp : s.pstate = .hdr) (ho : s.owner = some h) (hg : s.cmd.get h = b3 :: rest) (hb : s.hdrBuf = [b0, b1, b2])
    (hx : headerArrived (be32inv b0 b1 b2 b3) (headerState h rest b0 b1 b2 b3 s) = .next t) : AcceptCase s t := by
  unfold headerArrived at hx
  change (match decodeHeader s.accCount (be32inv b0 b1 b2 b3) with | .illegal c => _ | .legal op => _) = _ at hx
  split at hx
  · next c hd =>
    obtain ⟨h', ho', rfl⟩ := raiseFault_next hx
    have : h' = h := Option.some.inj (ho'.symm.trans ho)
    subst this
    exact .illegal h' b0 b1 b2 b3 rest c hp ho hg hb hd rfl
  · next op hd =>
    have run (he : endsWithHeader op = true)
        (hx : execute (headerState h rest b0 b1 b2 b3 s) = .next t) : AcceptCase s t := by
      rw [execute_legal (s := headerState h rest b0 b1 b2 b3 s) hd] at hx
      exact .atHeader h b0 b1 b2 b3 rest op hp ho hg hb hd he hx
    cases op with
    | update => cases hx; exact .toPrior h b0 b1 b2 b3 rest hp ho hg hb hd rfl
    | checksum => cases hx; exact .toData h b0 b1 b2 b3 rest hp ho hg hb (.inl hd) rfl
    | write => cases hx; exact .toData h b0 b1 b2 b3 rest hp ho hg hb (.inr hd) rfl
    | sum => cases hx; exact .toPrefix h b0 b1 b2 b3 rest hp ho hg hb hd rfl
    | reset => exact run rfl hx
    | sum32 => exact run rfl hx
    | size => exact run rfl hx
    | bsize => exact run rfl hx
    | tblrd => exact run rfl hx

theorem acceptHdr_cases {s t : State} (hp : s.pstate = .hdr) (hx : acceptHdr s = .next t) : AcceptCase s t := by
  unfold acceptHdr at hx
  split at hx
  · cases hx; exact .hold rfl
  · next b u hu =>
    obtain ⟨h, rest, ho, hg, rfl⟩ := takeByte_cases hu
    split at hx
    · next b0 b1 b2 b3 hb =>
      have hb' : s.hdrBuf ++ [b] = [b0, b1, b2] ++ [b3] := hb
      obtain ⟨h1, h2⟩ := List.append_inj' hb' rfl
      obtain rfl : b = b3 := by simpa using h2
      exact headerArrived_cases hp ho hg h1 hx
    · next hno =>
      cases hx
      refine .hdrByte h b rest hp ho hg (fun hl => ?_) rfl
      match hb : s.hdrBuf, hl with
      | [b0, b1, b2], _ => exact hno b0 b1 b2 b (by simp [hb])

theorem acceptPayload_cases {s t : State} (hp : s.pstate = .data ∨ s.pstate = .pfx)
    (hx : acceptPayload s = .next t) : AcceptCase s t := by
  unfold acceptPayload at hx
  split at hx
  · next hr =>
    cases hd : decodeHeader s.accCount s.hdr with
    | legal op => rw [execute_legal hd] at hx; exact .atPayload op hp hr hd hx
    | illegal c =>
      rw [execute_illegal hd] at hx
      obtain ⟨h, ho, rfl⟩ := raiseFault_next hx
      exact .illegalPayload h c hp hr ho hd rfl
  · next hr =>
    split at hx
    · cases hx; exact .hold rfl
    · next b u hu =>
      obtain ⟨h, rest, ho, hg, rfl⟩ := takeByte_cases hu
      cases hx
      exact .payloadByte h b rest hp ho hg hr rfl

/-- Everything acceptance can do when it answers a next state. -/
theorem accept_cases {s t : State} (hx : accept s = .next t) : AcceptCase s t := by
  unfold accept at hx
  split at hx
  · next hp =>
    cases hx
    unfold acceptIdle
    split
    · exact .hold rfl
    · next h hc => exact .chosen h hp hc rfl
  · next hp => exact acceptHdr_cases hp hx
  · next hp =>
    cases hx
    unfold acceptPrior
    split
    · exact .hold rfl
    · next b u hu =>
      obtain ⟨h, rest, ho, hg, rfl⟩ := takeByte_cases hu
      split
      · next hl => exact .priorDone h b rest hp ho hg (by simpa using hl) rfl
      · next hl => exact .priorByte h b rest hp ho hg (by simpa using hl) rfl
  · next hp => exact acceptPayload_cases (.inl hp) hx
  · next hp => exact acceptPayload_cases (.inr hp) hx

/-! ### One step -/

theorem step_frozen {s : State} (hf : s.faulted = true) : step s = .next s := by simp [step, transition, hf]

theorem step_generate {s : State} (hf : s.faulted = false) (hr : s.tableReady = false) :
    step s = .next (genStep s) := by simp [step, transition, hf, hr]

theorem step_accept {s : State} (hf : s.faulted = false) (hr : s.tableReady = true) : step s = accept s := by
  simp [step, transition, hf, hr]

/-- Everything a step can do when it answers a next state. -/
theorem step_cases {s t : State} (hx : step s = .next t) :
    (s.faulted = true ∧ t = s) ∨
    (s.faulted = false ∧ s.tableReady = false ∧ t = genStep s) ∨
    (s.faulted = false ∧ s.tableReady = true ∧ AcceptCase s t) := by
  cases hf : s.faulted with
  | true => rw [step_frozen hf] at hx; cases hx; exact .inl ⟨rfl, rfl⟩
  | false =>
    cases hr : s.tableReady with
    | false => rw [step_generate hf hr] at hx; cases hx; exact .inr (.inl ⟨rfl, rfl, rfl⟩)
    | true => rw [step_accept hf hr] at hx; exact .inr (.inr ⟨rfl, rfl, accept_cases hx⟩)

/-! ### Runs -/

theorem runSteps_next {n : Nat} {s t : State} (h : step s = .next t) : runSteps (n + 1) s = runSteps n t := by
  simp [runSteps, h]

theorem runSteps_add {m n : Nat} {s t : State} (h : runSteps m s = .next t) :
    runSteps (m + n) s = runSteps n t := by
  induction m generalizing s with
  | zero => cases h; rw [Nat.zero_add]
  | succ m ih =>
    rw [Nat.add_right_comm]
    simp only [runSteps] at h ⊢
    cases hs : step s with
    | next u => simp only [hs] at h ⊢; exact ih h
    | fault f => simp [hs] at h
    | refused r => simp [hs] at h

end Sys2Proof.Machine
end

