-- ==== Sys2Proof/Tests/Slice0.lean ====
section
/-! SUPPORT. Tests against the spec's own vectors (95_test_vectors.md, named in each comment) and worked packets
(30_encoding.md R81), and the witnesses that the hypotheses of the statements can be met. -/

namespace Sys2Proof.Tests

open Sys2Proof.Machine

/-! ### Small states -/

/-- A CORE with 2 accumulators and a finished table; host 0 owns the port. -/
def ready : State := { State.resetWith 2 1 .rom with tableReady := true, owner := some 0 }

/-- The same, with these bytes of host 0 waiting and these accumulators. -/
def fed (acc : List Word) (bytes : List Byte) : State := { ready with acc := acc, cmd := [(0, bytes)] }

/-- The same in the middle of a header. -/
def inHeader (buf bytes : List Byte) : State := { fed [0#32, 0#32] bytes with pstate := .hdr, hdrBuf := buf }

/-- What host `h` can read after a run. -/
def respOf (h : Nat) : Result → Option (List Byte)
  | .next t => some (t.resp.get h)
  | .fault _ => none
  | .refused _ => none

/-- The accumulators after a run. -/
def accAfter : Result → Option (List Word)
  | .next t => some t.acc
  | .fault _ => none
  | .refused _ => none

/-- The fault registers, `PSTATE` and host 0's unread bytes after a run. -/
def faultAfter : Result → Option (Bool × Byte × Word × PState × List Byte)
  | .next t => some (t.faulted, t.faultCause, t.faultHdr, t.pstate, t.cmd.get 0)
  | .fault _ => none
  | .refused _ => none

/-! ### WellFormed refuses an ill-formed command for each of its checks -/

theorem lenOk_replicate (n : Nat) : (Instr.checksum (List.replicate n 0#8)).lenOk = decide (n ≤ Config.lenMax) := by
  rw [Instr.lenOk, Instr.payload, List.length_replicate]

theorem test_lenOk_refuses : ∃ data : List Byte, data.length = 2 ^ 24 ∧ (Instr.checksum data).lenOk = false :=
  ⟨List.replicate (2 ^ 24) 0#8, List.length_replicate, (lenOk_replicate _).trans (by decide)⟩

theorem test_lenOk_at_the_limit : ∃ data : List Byte, data.length = 2 ^ 24 - 1 ∧ (Instr.checksum data).lenOk = true :=
  ⟨List.replicate (2 ^ 24 - 1) 0#8, List.length_replicate, (lenOk_replicate _).trans (by decide)⟩

theorem test_accOk_refuses : (Instr.reset 1#4).accOk 1 = false ∧ (Instr.write 15#4 []).accOk 15 = false := by decide

theorem test_accOk_accepts : (Instr.sum32 0#4).accOk 1 = true ∧ (Instr.sum 15#4 []).accOk 16 = true := by decide

theorem test_wf_refuses : (Instr.sum 2#4 []).wf 2 = false ∧ (Instr.sum 1#4 []).wf 2 = true := by decide

/-! ### Decoding words written out from the spec's encodings (30_encoding.md R61 to R67), one per constructor -/

theorem test_decode_checksum : decodeTableWord 32 0b00010000000000000000000000000011 =
    some (.checksum [0#8, 0#8, 0#8]) := by decide

theorem test_decode_update : decodeTableWord 64 0xC013A19520000000 = some (.update 0xC013A195#32 []) := by decide

theorem test_decode_reset : decodeTableWord 32 0b00111010000000000000000000000000 = some (.reset 10#4) := by decide

theorem test_decode_write : decodeTableWord 32 0b01000101000000000000000000000001 = some (.write 5#4 [0#8]) := by
  decide

theorem test_decode_sum32 : decodeTableWord 32 0b01011111000000000000000000000000 = some (.sum32 15#4) := by decide

theorem test_decode_sum : decodeTableWord 32 0b01100001000000000000000000000010 = some (.sum 1#4 [0#8, 0#8]) := by
  decide

theorem test_decode_size : decodeTableWord 32 0b01110000000000000000000000000000 = some .size := by decide

theorem test_decode_bsize : decodeTableWord 32 0b10000000000000000000000000000000 = some .bsize := by decide

theorem test_decode_tblrd : decodeTableWord 32 0b10010000000000000000000010000001 = some (.tblrd 0x81#8) := by decide

/-- V-DEC-1, V-DEC-16 and a reserved field: no instruction. -/
theorem test_decode_refuses : decodeTableWord 32 0 = none ∧ decodeTableWord 32 0xF5000001 = none ∧
    decodeTableWord 32 0x90000100 = none := by decide

/-- V-DEC-4, V-DEC-6 to V-DEC-12, V-DEC-14 to V-DEC-16, with `ACC_COUNT = 1`. -/
theorem test_header_faults :
    decodeHeader 1 0x11000000#32 = .illegal .reservedNonzero ∧
    decodeHeader 1 0x30000001#32 = .illegal .reservedNonzero ∧
    decodeHeader 1 0x31000000#32 = .illegal .badAsel ∧
    decodeHeader 1 0x3F000001#32 = .illegal .reservedNonzero ∧
    decodeHeader 1 0x4F000003#32 = .illegal .badAsel ∧
    decodeHeader 1 0x50000001#32 = .illegal .reservedNonzero ∧
    decodeHeader 1 0x70000001#32 = .illegal .reservedNonzero ∧
    decodeHeader 1 0x81000000#32 = .illegal .reservedNonzero ∧
    decodeHeader 1 0x90000100#32 = .illegal .reservedNonzero ∧
    decodeHeader 1 0xA0000000#32 = .illegal .illegalOpcode ∧
    decodeHeader 1 0xF5000001#32 = .illegal .illegalOpcode := by decide

/-- V-DEC-2, V-DEC-3, V-DEC-5, V-DEC-13. -/
theorem test_header_legal :
    decodeHeader 1 0x10000000#32 = .legal .checksum ∧ decodeHeader 1 0x10FFFFFF#32 = .legal .checksum ∧
    decodeHeader 1 0x30000000#32 = .legal .reset ∧ decodeHeader 1 0x900000FF#32 = .legal .tblrd := by decide

/-! ### One step or one command, against 95_test_vectors.md -/

/-- V-TBL-3 to V-TBL-8. -/
theorem test_table : tableEntry 0x02#8 = 0x09823B6E#32 ∧ tableEntry 0x40#8 = 0x34867077#32 ∧
    tableEntry 0x80#8 = 0x690CE0EE#32 ∧ tableEntry 0xFF#8 = 0xB1F740B4#32 ∧ tableEntry 0x88#8 = 0x4F040D56#32 ∧
    tableEntry 0x9A#8 = 0x0A97ED48#32 := by decide

/-- V-STEP-3, V-STEP-5 to V-STEP-7. -/
theorem test_step : crcStep 0xFFFFFFFF#32 0x00#8 = 0x4E08BFB4#32 ∧ crcStep 0x12345678#32 0x9A#8 = 0x7B527556#32 ∧
    crcStep 0x80000000#32 0x80#8 = 0x00000000#32 ∧ crcStep 0x00FFFFFF#32 0x00#8 = 0xFFFFFF00#32 := by decide

/-- V-RES-3. -/
theorem test_residue :
    crcChecksum [0x61#8, 0x62#8, 0x63#8, 0x64#8, 0x8C#8, 0xBB#8, 0x73#8] = 0x38FB2284#32 := by decide +kernel

/-- V-CHK-6. -/
theorem test_checksum_digits : respOf 0 (exec (.checksum
    [0x31#8, 0x32#8, 0x33#8, 0x34#8, 0x35#8, 0x36#8, 0x37#8, 0x38#8, 0x39#8]) ready) =
    some [0x00#8, 0xFC#8, 0x89#8, 0x19#8, 0x18#8] := by decide +kernel

/-- V-CHK-3, with the accumulators left alone. -/
theorem test_checksum_ff : respOf 0 (exec (.checksum [0xFF#8]) ready) = some [0x00#8, 0x00#8, 0x00#8, 0x00#8, 0xFF#8] ∧
    accAfter (exec (.checksum [0xFF#8]) ready) = some [0#32, 0#32] := by decide +kernel

/-- V-UPD-3. -/
theorem test_update_chunk : respOf 0 (exec (.update 0xC013A195#32 [0x33#8, 0x34#8]) ready) =
    some [0x00#8, 0x59#8, 0x6A#8, 0x3B#8, 0x55#8] := by decide +kernel

/-- V-UPD-10. -/
theorem test_update_prior : respOf 0 (exec (.update 0x12345678#32 [0xAB#8]) ready) =
    some [0x00#8, 0x1A#8, 0x56#8, 0x45#8, 0x3A#8] := by decide +kernel

/-- V-ACC-9, and the example of 42_accumulator.md R142. -/
theorem test_reset_one : accAfter (exec (.reset 1#4) (fed [0x19939B6B#32, 0x648CBB73#32] [])) =
    some [0x19939B6B#32, 0#32] ∧ respOf 0 (exec (.reset 1#4) ready) = some [0x00#8] := by decide +kernel

/-- V-ACC-2. -/
theorem test_write_append : accAfter (exec (.write 0#4 [0x62#8, 0x63#8]) (fed [0x19939B6B#32, 0#32] [])) =
    some [0x648CBB73#32, 0#32] := by decide +kernel

/-- V-ACC-2 and V-ACC-3, the responses. -/
theorem test_write_count : respOf 0 (exec (.write 0#4 [0x62#8, 0x63#8]) ready) =
    some [0x00#8, 0x00#8, 0x00#8, 0x00#8, 0x02#8] ∧
    respOf 0 (exec (.write 0#4 []) ready) = some [0x00#8, 0x00#8, 0x00#8, 0x00#8, 0x00#8] := by decide +kernel

/-- V-ACC-4 and V-ACC-8. -/
theorem test_sum32 : respOf 0 (exec (.sum32 0#4) (fed [0x648CBB73#32, 0#32] [])) =
    some [0x00#8, 0x64#8, 0x8C#8, 0xBB#8, 0x73#8] ∧
    respOf 0 (exec (.sum32 1#4) (fed [0x648CBB73#32, 0#32] [])) = some [0x00#8, 0x00#8, 0x00#8, 0x00#8, 0x00#8] := by
  decide +kernel

/-- V-ACC-5. -/
theorem test_sum : respOf 0 (exec (.sum 0#4 [0xAA#8, 0xBB#8]) (fed [0x648CBB73#32, 0#32] [])) =
    some [0x00#8, 0xAA#8, 0xBB#8, 0x64#8, 0x8C#8, 0xBB#8, 0x73#8] := by decide +kernel

/-- V-ACC-6 and V-ACC-7. -/
theorem test_size_bsize : respOf 0 (exec .size ready) = some [0x00#8, 0x00#8, 0x00#8, 0x00#8, 0x04#8] ∧
    respOf 0 (exec .bsize ready) = some [0x00#8, 0x00#8, 0x00#8, 0x00#8, 0x01#8] := by decide +kernel

/-- V-TBLRD-3 and V-TBLRD-4. -/
theorem test_tblrd : respOf 0 (exec (.tblrd 0x80#8) ready) = some [0x00#8, 0x69#8, 0x0C#8, 0xE0#8, 0xEE#8] ∧
    respOf 0 (exec (.tblrd 0xFF#8) ready) = some [0x00#8, 0xB1#8, 0xF7#8, 0x40#8, 0xB4#8] := by decide +kernel

/-! ### The step after reset runs the placed instruction; faults; the generator -/

/-- 42_accumulator.md R154. -/
theorem test_place_bsize : respOf 0 (step (State.reset.withFetchWord 32 0x80000000)) =
    some [0x00#8, 0x00#8, 0x00#8, 0x00#8, 0x01#8] := by decide +kernel

/-- V-CHK-2. -/
theorem test_place_checksum : respOf 0 (step (State.reset.withFetchWord 32 0x10000001)) =
    some [0x00#8, 0xB1#8, 0xF7#8, 0x40#8, 0x4B#8] := by decide +kernel

/-- V-UPD-6: the 4 bytes after the header are `PRIOR`. -/
theorem test_place_update : respOf 0 (step (State.reset.withFetchWord 64 0x1234567820000000)) =
    some [0x00#8, 0x12#8, 0x34#8, 0x56#8, 0x78#8] := by decide +kernel

/-- V-DEC-7: `BAD_ASEL` at `ACC_COUNT = 1`. -/
theorem test_place_badAsel : faultAfter (step (State.reset.withFetchWord 32 0x31000000)) =
    some (true, 0x03#8, 0x31000000#32, .idle, []) := by decide +kernel

/-- V-DEC-9 with 2 accumulators: nothing of the payload is consumed. -/
theorem test_fault_keeps_payload :
    faultAfter (runSteps 7 (fed [0#32, 0#32] [0x4F#8, 0x00#8, 0x00#8, 0x03#8, 0x61#8, 0x62#8, 0x63#8])) =
      some (true, 0x03#8, 0x4F000003#32, .idle, [0x61#8, 0x62#8, 0x63#8]) ∧
    respOf 0 (runSteps 7 (fed [0#32, 0#32] [0x4F#8, 0x00#8, 0x00#8, 0x03#8, 0x61#8, 0x62#8, 0x63#8])) =
      some [0x03#8] := by decide +kernel

/-- A packet through the port: `WRITE 0, "abc"` (30_encoding.md R81) takes one step to choose the host, 7 for its bytes
and one to execute. -/
theorem test_packet_write :
    accAfter (runSteps 9 (fed [0#32, 0#32] [0x40#8, 0x00#8, 0x00#8, 0x03#8, 0x61#8, 0x62#8, 0x63#8])) =
      some [0x648CBB73#32, 0#32] ∧
    accAfter (runSteps 8 (fed [0#32, 0#32] [0x40#8, 0x00#8, 0x00#8, 0x03#8, 0x61#8, 0x62#8, 0x63#8])) =
      some [0#32, 0#32] := by decide +kernel

/-- From reset: the generator takes its one step, then `TBLRD 0x80` arrives (V-TBLRD-3). -/
theorem test_reset_generates : respOf 3 (runSteps 6 { State.reset with
    cmd := [(3, [0x90#8, 0x00#8, 0x00#8, 0x80#8])] }) = some [0x00#8, 0x69#8, 0x0C#8, 0xE0#8, 0xEE#8] := by
  decide +kernel

/-- A latency longer than the work: the generator waits, seeds and steps (40_table_generator.md R101). -/
theorem test_generator_step : (genStep { State.resetWith 1 2304 .generated with genIdx := 1, genLeft := 2295 }).genW =
    0x02000000#32 := by decide

/-! ### The assembler (30_encoding.md R78, R79, R81) -/

/-- `TBLRD 0x01 ; c`. -/
theorem test_asm_tblrd : assembleText
    ['T', 'B', 'L', 'R', 'D', ' ', '0', 'x', '0', '1', ' ', ';', ' ', 'c'] =
    some [0x90#8, 0x00#8, 0x00#8, 0x01#8] := by decide

/-- `SUM 0, [0xAA, 187]`. -/
theorem test_asm_sum : assembleText
    ['S', 'U', 'M', ' ', '0', ',', ' ', '[', '0', 'x', 'A', 'A', ',', ' ', '1', '8', '7', ']'] =
    some [0x60#8, 0x00#8, 0x00#8, 0x02#8, 0xAA#8, 0xBB#8] := by decide

/-- Out of range operands are errors, and `NEW` is `RESET`. -/
theorem test_asm_ranges : assemble (.reset 16) = none ∧ assemble (.tblrd 256) = none ∧
    assemble (.update (2 ^ 32) []) = none ∧ assemble (.new 1) = some [.reset 1#4] ∧
    assemble (.lwrite 2 []) = some [.write 2#4 []] := by decide

/-! ### Witnesses: the hypotheses of each statement can be met together -/

theorem ready_tableBuilt : ready.TableBuilt := tableOf_builtTable

theorem ready_accepting : ready.Accepting := ⟨rfl, rfl⟩

/-- Hypotheses on a command: its owner, the table, and an accumulator at the boundary, on the smallest and the largest
CORE. (`ChecksumCommand`, `UpdateCommand`, `ResetCommand`, `WriteCommand`, `Sum32Command`, `SumCommand`, `SizeCommand`,
`BsizeCommand`, `TblrdCommand`, `ReadAfterWrite`, `ResetReproducibility`.) -/
theorem witness_command : ready.owner = some 0 ∧ ready.TableBuilt ∧ (1#4).toNat < ready.accCount ∧
    (0#4).toNat < State.reset.accCount ∧ (15#4).toNat < (State.resetWith 16 1 .rom).accCount :=
  ⟨rfl, tableOf_builtTable, by decide, by decide, by decide⟩

/-- Payloads of the least and the greatest length. -/
theorem witness_length : ([] : List Byte).length ≤ 2 ^ 24 - 1 ∧
    ∃ data : List Byte, data.length = 2 ^ 24 - 1 ∧ data.length ≤ 2 ^ 24 - 1 :=
  ⟨by decide, List.replicate (2 ^ 24 - 1) 0#8, List.length_replicate, Nat.le_of_eq List.length_replicate⟩

theorem witness_IdentityCases : ∀ b ∈ [0#8, 0#8], b = 0#8 := by decide

theorem witness_ChecksumCommand : opcField 0x11000000#32 = 0x1#4 ∧ aselField 0x11000000#32 ≠ 0#4 ∧
    opcField 0x1F000000#32 = 0x1#4 ∧ aselField 0x1F000000#32 ≠ 0#4 := by decide

theorem witness_UpdateCommand : opcField 0x21000000#32 = 0x2#4 ∧ aselField 0x21000000#32 ≠ 0#4 ∧
    opcField 0x2FFFFFFF#32 = 0x2#4 ∧ aselField 0x2FFFFFFF#32 ≠ 0#4 := by decide

theorem witness_ResetCommand : (opcField 0x30000001#32 = 0x3#4 ∧ immField 0x30000001#32 ≠ 0#24) ∧
    (opcField 0x3FFFFFFF#32 = 0x3#4 ∧ immField 0x3FFFFFFF#32 ≠ 0#24) ∧
    (opcField 0x31000000#32 = 0x3#4 ∧ immField 0x31000000#32 = 0#24 ∧ 1 ≤ (aselField 0x31000000#32).toNat) := by decide

theorem witness_WriteCommand : (opcField 0x41000000#32 = 0x4#4 ∧ 1 ≤ (aselField 0x41000000#32).toNat) ∧
    (opcField 0x4FFFFFFF#32 = 0x4#4 ∧ 15 ≤ (aselField 0x4FFFFFFF#32).toNat) := by decide

/-- The completion clause of `WriteCommand`, with no payload and with the longest one. -/
theorem witness_WriteCommand_completes :
    ready.owner = some 0 ∧ ready.TableBuilt ∧ (1#4).toNat < ready.accCount ∧ ([] : List Byte).length ≤ 2 ^ 24 - 1 ∧
      ∃ data : List Byte, data.length = 2 ^ 24 - 1 ∧ data.length ≤ 2 ^ 24 - 1 :=
  ⟨rfl, tableOf_builtTable, by decide, witness_length.1, witness_length.2⟩

theorem witness_Sum32Command : (opcField 0x50800000#32 = 0x5#4 ∧ immField 0x50800000#32 ≠ 0#24) ∧
    (opcField 0x51000000#32 = 0x5#4 ∧ immField 0x51000000#32 = 0#24 ∧ 1 ≤ (aselField 0x51000000#32).toNat) ∧
    (∃ t u : State, exec (.sum32 1#4) ready = .next t ∧ exec (.sum32 1#4) t = .next u) ∧
    ∃ t : State, exec (.reset 1#4) ready = .next t :=
  ⟨by decide, by decide, ⟨_, _, rfl, rfl⟩, _, rfl⟩

theorem witness_SumCommand : opcField 0x61000000#32 = 0x6#4 ∧ 1 ≤ (aselField 0x61000000#32).toNat := by decide

theorem witness_SizeCommand : (opcField 0x71000000#32 = 0x7#4 ∧ aselField 0x71000000#32 ≠ 0#4) ∧
    (opcField 0x70800000#32 = 0x7#4 ∧ immField 0x70800000#32 ≠ 0#24) := by decide

theorem witness_BsizeCommand : (opcField 0x88000000#32 = 0x8#4 ∧ aselField 0x88000000#32 ≠ 0#4) ∧
    (opcField 0x80000001#32 = 0x8#4 ∧ immField 0x80000001#32 ≠ 0#24) := by decide

theorem witness_TblrdCommand : (opcField 0x91000000#32 = 0x9#4 ∧ aselField 0x91000000#32 ≠ 0#4) ∧
    (opcField 0x90000100#32 = 0x9#4 ∧ (0x90000100#32 : Word).extractLsb' 8 16 ≠ 0#16) ∧
    (opcField 0x90800000#32 = 0x9#4 ∧ (0x90800000#32 : Word).extractLsb' 8 16 ≠ 0#16) := by decide

theorem witness_DecodeOfEncode : (Instr.write 1#4 [0xFF#8]).wf 2 = true := by decide

theorem witness_EncodeOfDecode :
    decode 2 [0x60#8, 0x00#8, 0x00#8, 0x02#8, 0xAA#8, 0xBB#8, 0x70#8] =
      .command (.sum 0#4 [0xAA#8, 0xBB#8]) [0x70#8] := by decide

/-- Each of the four outcomes at its boundaries: the opcodes on both sides of the reserved ranges, a header that meets
all three conditions, one that meets two, and the last and first accumulator numbers on both sides of `ACC_COUNT`. -/
theorem witness_DecodeChecksInOrder :
    (opcField 0x0FFFFFFF#32 = 0x0#4 ∧ 0xA#4 ≤ opcField 0xA0000000#32 ∧ ¬ 0xA#4 ≤ opcField 0x9FFFFFFF#32) ∧
    decodeHeader 1 0x0FFFFFFF#32 = .illegal .illegalOpcode ∧ decodeHeader 1 0xA0000000#32 = .illegal .illegalOpcode ∧
    decodeHeader 1 0xFFFFFFFF#32 = .illegal .illegalOpcode ∧ decodeHeader 1 0x3F000001#32 = .illegal .reservedNonzero ∧
    decodeHeader 1 0x9FFFFFFF#32 = .illegal .reservedNonzero ∧ decodeHeader 1 0x41000000#32 = .illegal .badAsel ∧
    decodeHeader 15 0x3F000000#32 = .illegal .badAsel ∧ decodeHeader 16 0x3F000000#32 = .legal .reset ∧
    decodeHeader 1 0x40000000#32 = .legal .write := by decide

theorem witness_PacketLengths : (Instr.update 1#32 [2#8]).wf 1 = true ∧
    decodeHeader 1 (be32inv 0x31#8 0#8 0#8 0#8) = .illegal .badAsel := by decide

/-- Also of `LegalCommandsNeverFault`. -/
theorem witness_ResponseTable : ready.owner = some 0 ∧ ready.TableBuilt ∧ (Instr.sum 1#4 [1#8]).wf ready.accCount = true ∧
    ∃ t : State, exec (.sum 1#4 [1#8]) ready = .next t :=
  ⟨rfl, tableOf_builtTable, by decide, _, rfl⟩

theorem witness_ReadsHaveNoSideEffects :
    (Instr.sum32 1#4).opcode ∈ [Opcode.sum32, Opcode.sum, Opcode.size, Opcode.bsize, Opcode.tblrd] ∧
      (Instr.sum32 1#4).wf ready.accCount = true ∧ (∃ t : State, exec (.sum32 1#4) ready = .next t) ∧
      ready.owner ≠ some 1 :=
  ⟨by decide, by decide, ⟨_, rfl⟩, by decide⟩

theorem witness_MissingAccumulatorFaults :
    ready.owner = some 0 ∧ (Instr.write 2#4 []).accOf = some 2#4 ∧ ready.accCount ≤ (2#4).toNat := by decide

theorem witness_NoOwnerStops : State.reset.owner = none := rfl

theorem witness_AccumulatorHoldsItsChecksum :
    ready.TableBuilt ∧ (1#4).toNat < ready.accCount ∧ accRead 1#4 ready = crcChecksum [] ∧
      ∀ c ∈ [(3, Instr.write 1#4 [0x61#8]), (0, Instr.reset 0#4)], c.2.wf ready.accCount = true :=
  ⟨tableOf_builtTable, by decide, by decide, by decide⟩

/-- Two CORES that agree on `ACC[1]` and differ on `ACC[0]`. -/
theorem witness_AccumulatorsAreIndependent :
    (ready.TableBuilt ∧ (fed [7#32, 0#32] []).TableBuilt ∧ ready.accCount = (fed [7#32, 0#32] []).accCount ∧
      (1#4).toNat < ready.accCount ∧ accRead 1#4 ready = accRead 1#4 (fed [7#32, 0#32] []) ∧
      ∀ c ∈ [(3, Instr.write 1#4 [0x61#8]), (0, Instr.reset 0#4)], c.2.wf ready.accCount = true) ∧
    ([7#32, 0#32] : List Word).length = ready.accCount ∧ (Instr.sum32 1#4).wf ready.accCount = true ∧
    (∀ a : BitVec 4, (Instr.sum32 1#4).accOf = some a →
      accRead a { ready with acc := [7#32, 0#32] } = accRead a ready) ∧
    ∃ t : State, exec (.sum32 1#4) ready = .next t :=
  ⟨⟨tableOf_builtTable, tableOf_builtTable, by decide, by decide, by decide, by decide⟩, by decide, by decide,
    fun a h => by cases h; decide, _, rfl⟩

theorem witness_PseudoInstructions : (0 : Nat) ≤ 15 ∧ (15 : Nat) ≤ 15 ∧ ready.TableBuilt ∧ (0#4).toNat < ready.accCount :=
  ⟨by decide, by decide, tableOf_builtTable, by decide⟩

/-- A `WRITE` whose payload has arrived, and a `SIZE` whose last header byte is next. -/
theorem witness_StepRunsTheDecodedCommand :
    (let s : State := { ready with
        pstate := .data, hdr := (Instr.write 1#4 [5#8]).header, payload := [5#8] }
     s.Accepting ∧ (Instr.write 1#4 [5#8]).wf s.accCount = true ∧
      (s.pstate = .data ∨ s.pstate = .pfx) ∧ s.remain = 0#24 ∧ s.hdr = (Instr.write 1#4 [5#8]).header ∧
      s.payload = (Instr.write 1#4 [5#8]).payload ∧
      ((Instr.write 1#4 [5#8]).opcode = .update → s.priorBuf = (Instr.write 1#4 [5#8]).priorBytes)) ∧
    let s := inHeader [0x70#8, 0#8, 0#8] [0#8, 9#8]
    s.Accepting ∧ Instr.size.wf s.accCount = true ∧ s.pstate = .hdr ∧ s.owner = some 0 ∧
      s.hdrBuf = [0x70#8, 0#8, 0#8] ∧ s.cmd.get 0 = 0#8 :: [9#8] ∧ encode .size = [0x70#8, 0#8, 0#8, 0#8] :=
  ⟨⟨⟨rfl, rfl⟩, by decide, .inl rfl, rfl, rfl, rfl, by decide⟩, ⟨rfl, rfl⟩, by decide, rfl, rfl, rfl, rfl, by decide⟩

/-- Each transition's hypotheses, in the order of the statement. -/
theorem witness_AcceptanceTransitions :
    (ready.Accepting ∧ ready.pstate = .idle ∧ (∀ h : Nat, ready.cmd.get h = []) ∧ ready.cmd.wf = true) ∧
    ((fed [] [1#8]).pstate = .idle ∧ (∃ h : Nat, (fed [] [1#8]).cmd.get h ≠ []) ∧ (fed [] [1#8]).cmd.wf = true) ∧
    (ready.owner = some 0 ∧ ready.cmd.get 0 = [] ∧ ({ ready with pstate := .prior } : State).pstate = .prior) ∧
    (({ ready with pstate := .data, remain := 1#24 } : State).remain ≠ 0#24) ∧
    ((inHeader [1#8, 2#8] [3#8]).cmd.get 0 = 3#8 :: [] ∧ (inHeader [1#8, 2#8] [3#8]).hdrBuf.length < 3) ∧
    ((inHeader [0x31#8, 0#8, 0#8] [0#8]).hdrBuf = [0x31#8, 0#8, 0#8] ∧
      decodeHeader 2 (be32inv 0x00#8 0#8 0#8 0#8) = .illegal .illegalOpcode ∧
      decodeHeader 2 (be32inv 0x20#8 0#8 0#8 0#8) = .legal .update ∧
      decodeHeader 2 (be32inv 0x10#8 0#8 0#8 0#8) = .legal .checksum ∧
      decodeHeader 2 (be32inv 0x4F#8 0#8 0#8 0#8) = .illegal .badAsel ∧
      decodeHeader 2 (be32inv 0x41#8 0#8 0#8 0#8) = .legal .write ∧
      decodeHeader 2 (be32inv 0x61#8 0#8 0#8 0#8) = .legal .sum ∧
      decodeHeader 2 (be32inv 0x31#8 0#8 0#8 0#8) = .legal .reset) :=
  ⟨⟨⟨rfl, rfl⟩, rfl, fun _ => rfl, rfl⟩, ⟨rfl, ⟨0, by decide⟩, rfl⟩, ⟨rfl, rfl, rfl⟩, by decide, ⟨rfl, by decide⟩,
    ⟨rfl, by decide, by decide, by decide, by decide, by decide, by decide, by decide⟩⟩

theorem witness_AcceptanceTransitions_payload :
    (let s : State := { fed [0#32] [9#8] with pstate := .prior, priorBuf := [1#8, 2#8, 3#8], hdr := 0x20000001#32 }
     s.Accepting ∧ s.owner = some 0 ∧ s.cmd.get 0 = 9#8 :: [] ∧ s.priorBuf.length = 3) ∧
    ({ fed [0#32] [9#8] with pstate := .prior } : State).priorBuf.length < 3 ∧
    (let s : State := { fed [0#32] [9#8] with pstate := .pfx, remain := 1#24 }
     s.Accepting ∧ s.owner = some 0 ∧ s.cmd.get 0 = 9#8 :: [] ∧ s.remain ≠ 0#24) ∧
    let s : State := { fed [0#32] [] with pstate := .data, hdr := 0x10000000#32 }
    s.Accepting ∧ s.remain = 0#24 ∧ decodeHeader s.accCount s.hdr = .legal .checksum :=
  ⟨⟨⟨rfl, rfl⟩, rfl, rfl, rfl⟩, by decide, ⟨⟨rfl, rfl⟩, rfl, rfl, by decide⟩, ⟨rfl, rfl⟩, rfl, by decide⟩

/-- `SUM 0, [0xAA, 0xBB]` and one byte more, from the only host that has sent any. -/
theorem witness_WholePacketRunsItsCommand :
    let s := fed [0#32] (encode (.sum 0#4 [0xAA#8, 0xBB#8]) ++ [1#8])
    s.Accepting ∧ s.pstate = .idle ∧ s.cmd.wf = true ∧ chooseHost s.choices s.cmd.ready = some 0 ∧
      s.cmd.get 0 = encode (.sum 0#4 [0xAA#8, 0xBB#8]) ++ [1#8] ∧
      (Instr.sum 0#4 [0xAA#8, 0xBB#8]).wf s.accCount = true :=
  ⟨⟨rfl, rfl⟩, rfl, by decide, by decide, rfl, by decide⟩

theorem witness_PacketProgramRunsToItsEnd :
    let cmds : List Instr := [.reset 0#4, .write 0#4 [1#8], .sum32 0#4]
    let s := fed [0#32] (cmds.map encode).flatten
    s.Accepting ∧ s.pstate = .idle ∧ cmds ≠ [] ∧ s.cmd = [(0, (cmds.map encode).flatten)] ∧
      ∀ i ∈ cmds, i.wf s.accCount = true :=
  ⟨⟨rfl, rfl⟩, rfl, by decide, rfl, by decide⟩

theorem witness_TwoHostsInEitherOrder :
    let s : State := { ready with cmd := [(2, encode (.write 0#4 [1#8])), (7, encode (.write 0#4 [2#8]))] }
    s.Accepting ∧ s.pstate = .idle ∧ 2 < 7 ∧
      s.cmd = [(2, encode (.write 0#4 [1#8])), (7, encode (.write 0#4 [2#8]))] ∧
      (Instr.write 0#4 [1#8]).wf s.accCount = true ∧ (Instr.write 0#4 [2#8]).wf s.accCount = true :=
  ⟨⟨rfl, rfl⟩, rfl, by decide, rfl, by decide, by decide⟩

theorem witness_OwnerHoldsThePort :
    (inHeader [1#8] [2#8]).cmd.wf = true ∧ (inHeader [1#8] [2#8]).pstate ≠ .idle ∧
      (inHeader [1#8] [2#8]).owner = some 0 ∧ ∃ t : State, step (inHeader [1#8] [2#8]) = .next t :=
  ⟨by decide, by decide, rfl, _, rfl⟩

theorem witness_ResponsesAreOnlyAppended :
    (∃ t : State, step (inHeader [0x70#8, 0#8, 0#8] [0#8]) = .next t) ∧
      (inHeader [0x70#8, 0#8, 0#8] [0#8]).owner ≠ some 1 :=
  ⟨⟨_, rfl⟩, by decide⟩

/-- A `RESET` of an accumulator that does not hold 0. -/
theorem witness_AccumulatorsChangeOnlyAtPacketEnd :
    ∃ t : State, step { inHeader [0x30#8, 0#8, 0#8] [0#8] with acc := [7#32] } = .next t ∧ t.acc ≠ [7#32] :=
  ⟨_, rfl, by decide +kernel⟩

theorem witness_HeaderFaultEntry :
    (let s := inHeader [0x00#8, 0#8, 0#8] [1#8, 2#8]
     s.Accepting ∧ s.pstate = .hdr ∧ s.owner = some 0 ∧ s.hdrBuf = [0x00#8, 0#8, 0#8] ∧
      s.cmd.get 0 = 1#8 :: [2#8] ∧ decodeHeader s.accCount (be32inv 0x00#8 0#8 0#8 1#8) = .illegal .illegalOpcode) ∧
    let s := fed [0#32] [0x31#8, 0#8, 0#8, 0#8, 9#8]
    s.Accepting ∧ s.pstate = .idle ∧ s.cmd.wf = true ∧ chooseHost s.choices s.cmd.ready = some 0 ∧
      s.cmd.get 0 = 0x31#8 :: 0#8 :: 0#8 :: 0#8 :: [9#8] ∧
      decodeHeader s.accCount (be32inv 0x31#8 0#8 0#8 0#8) = .illegal .badAsel :=
  ⟨⟨⟨rfl, rfl⟩, rfl, rfl, rfl, rfl, by decide⟩, ⟨rfl, rfl⟩, rfl, by decide, by decide, rfl, by decide⟩

/-- Invariant states: right after reset, and in the middle of a header. -/
theorem witness_reset_inv : State.reset.Inv where
  accCount_pos := by decide
  accCount_le := by decide
  table_wf := rfl
  table_built h := by cases h
  gen_ok _ := ⟨rfl, rfl, by decide, rfl, by decide⟩
  parser_ok := ⟨by decide, by decide, trivial⟩
  fault_ok := ⟨rfl, rfl⟩
  cmd_wf := rfl
  resp_wf := rfl

theorem witness_header_inv : (inHeader [0#8, 0#8, 0#8] [0#8]).Inv where
  accCount_pos := by decide
  accCount_le := by decide
  table_wf := builtTable_wf
  table_built _ := rfl
  gen_ok h := by cases h
  parser_ok := ⟨by decide, by decide, rfl, by decide⟩
  fault_ok := ⟨rfl, rfl⟩
  cmd_wf := by decide
  resp_wf := rfl

theorem witness_OnlyIllegalHeadersFault :
    ((inHeader [0#8, 0#8, 0#8] [0#8]).Inv ∧ (inHeader [0#8, 0#8, 0#8] [0#8]).faulted = false ∧
      ∃ t : State, step (inHeader [0#8, 0#8, 0#8] [0#8]) = .next t ∧ t.faulted = true) ∧
    (let s : State := { ready with faulted := true }
     s.faulted = true ∧ ∃ t : State, applyEvent .hardwareReset s = .next t ∧ t.faulted = false) :=
  ⟨⟨witness_header_inv, rfl, _, rfl, rfl⟩, rfl, _, rfl, rfl⟩

theorem witness_FaultedCoreIsFrozen :
    let s : State := { ready with faulted := true }
    s.faulted = true ∧ s.cmd.wf = true ∧ s.resp.wf = true ∧
      HostEvent.hardwareReset ∉ [HostEvent.send 0 [1#8], .tick, .take 0 1] := by decide +kernel

/-- Also of `StepKeepsTheInvariant`, `EventsKeepTheInvariant` and `RunsNeverStop`. -/
theorem witness_TableReadyHold : State.reset.Inv ∧ State.reset.faulted = false ∧ State.reset.tableReady = false ∧
    (∃ t : State, step State.reset = .next t) ∧ ∃ t : State, runEvents [.tick, .send 0 [1#8]] State.reset = .next t :=
  ⟨witness_reset_inv, rfl, rfl, ⟨_, rfl⟩, _, rfl⟩

theorem witness_GeneratorBuildsTheTable : 1 ≤ State.reset.genLatency ∧ 0 < State.reset.genLatency ∧
    (State.resetWith 16 10000 .rom).genLatency = 10000 := by decide

/-- The generator's last step, an earlier one, and a finished CORE. -/
theorem witness_TableIsWrittenOnce :
    (State.reset.Inv ∧ State.reset.tableReady = false ∧ State.reset.tableImpl = .generated ∧
      ∃ t : State, step State.reset = .next t ∧ t.tableReady = true) ∧
    (∃ t : State, step { State.reset with genLeft := 9 } = .next t ∧ t.tableReady = false) ∧
    (inHeader [0#8, 0#8, 0#8] [0#8]).Inv ∧ (inHeader [0#8, 0#8, 0#8] [0#8]).tableReady = true ∧
    HostEvent.hardwareReset ∉ [HostEvent.tick] ∧
    ∃ t : State, runEvents [.tick] (inHeader [0#8, 0#8, 0#8] [0#8]) = .next t :=
  ⟨⟨witness_reset_inv, rfl, rfl, _, rfl, rfl⟩, ⟨_, rfl, rfl⟩, witness_header_inv, rfl, by decide, _, rfl⟩

theorem witness_ResetHasTheInvariant : 1 ≤ 1 ∧ 1 ≤ 16 ∧ 16 ≤ 16 := by decide

end Sys2Proof.Tests
end

section
/-! Proofs about the byte order (00_scope.md R13). -/

namespace Sys2Proof

theorem be32inv_eq (b0 b1 b2 b3 : Byte) : be32inv b0 b1 b2 b3 =
    (b0.setWidth 32 <<< 24) ^^^ (b1.setWidth 32 <<< 16) ^^^ (b2.setWidth 32 <<< 8) ^^^ b3.setWidth 32 := rfl

/-- Settles O9: the two formulas of R13, the bytes of an assembled word, and the word of its own bytes. -/
theorem bigEndianRoundTrip : Obligations.BigEndianRoundTrip :=
  ⟨be32_eq, be32inv_eq, be32_inv_bytes, beWord_of_be32⟩

end Sys2Proof
end

section
/-! Proofs about the program of commands: what a legal command does to the accumulators, and 10_state.md R23. -/

namespace Sys2Proof.Machine

/-! ### What a legal command keeps -/

/-- A command whose accumulator exists completes for any owner (30_encoding.md R76). -/
theorem exec_completes {s : State} {i : Instr} {h : Nat} (hw : i.accOk s.accCount = true) (ho : s.owner = some h) :
    ∃ t : State, exec i s = .next t := by
  obtain ⟨bytes, acc, w, hx, -⟩ := exec_of_accOk hw
  exact ⟨_, hx.trans (respond_of_owner _ ho)⟩

theorem exec_table {s t : State} {i : Instr} (hw : i.accOk s.accCount = true) (hx : exec i s = .next t) :
    t.table = s.table := by
  obtain ⟨h, bytes, acc, w, -, rfl, -⟩ := exec_next hw hx
  rfl

theorem exec_accCount {s t : State} {i : Instr} (hw : i.accOk s.accCount = true) (hx : exec i s = .next t) :
    t.accCount = s.accCount := by
  obtain ⟨h, bytes, acc, w, -, rfl, rfl | ⟨a, v, -, rfl, -⟩⟩ := exec_next hw hx
  · rfl
  · simp [State.accCount]

/-- Only `RESET` and `WRITE` change an accumulator (10_state.md R24). -/
theorem exec_acc_of_opcode {s t : State} {i : Instr} (hw : i.accOk s.accCount = true) (hx : exec i s = .next t)
    (hr : i.opcode ≠ .reset) (hwr : i.opcode ≠ .write) : t.acc = s.acc := by
  obtain ⟨h, bytes, acc, w, -, rfl, hacc | ⟨a, v, -, -, ho | ho⟩⟩ := exec_next hw hx
  · exact hacc
  · exact absurd ho hr
  · exact absurd ho hwr

/-- `RESET b` sets `ACC[b]` to the initial value (42_accumulator.md R142). -/
theorem exec_reset_acc {s t : State} {b : BitVec 4} (hb : b.toNat < s.accCount)
    (hx : exec (.reset b) s = .next t) : t.acc = s.acc.set b.toNat Config.initValue := by
  obtain ⟨h, -, rfl⟩ := respond_next ((withAcc_of_lt _ _ hb).symm.trans hx)
  rfl

/-- `WRITE b` updates `ACC[b]` over the state's table with its payload (42_accumulator.md R146). -/
theorem exec_write_acc {s t : State} {b : BitVec 4} {data : List Byte} (hb : b.toNat < s.accCount)
    (hx : exec (.write b data) s = .next t) :
    t.acc = s.acc.set b.toNat (updateWith (tableOf s.table) (accRead b s) data) := by
  obtain ⟨h, -, rfl⟩ := respond_next ((withAcc_of_lt _ _ hb).symm.trans hx)
  rfl

/-! ### The contents an accumulator stands for (10_state.md R23) -/

/-- Over the finished table, updating a checksum is the checksum of the longer sequence (41_crc_update.md R123). -/
theorem updateWith_crcChecksum {s : State} (ht : s.TableBuilt) (content data : List Byte) :
    updateWith (tableOf s.table) (crcChecksum content) data = crcChecksum (content ++ data) := by
  simp only [updateWith, crcChecksum, crcUpdate, BitVec.not_not, feedWith_append, feedWith_congr ht]

/-- `ACC[a]` is read from the accumulators alone. -/
theorem accRead_congr {s t : State} (a : BitVec 4) (h : t.acc = s.acc) : accRead a t = accRead a s := by
  simp only [accRead, h]

/-- One legal command leaves in `ACC[a]` the checksum of what `ACC[a]` then stands for. -/
theorem exec_accRead {s t : State} {i : Instr} {a : BitVec 4} {content : List Byte}
    (hw : i.accOk s.accCount = true) (ht : s.TableBuilt) (hc : accRead a s = crcChecksum content)
    (hx : exec i s = .next t) : accRead a t = crcChecksum (contentAfter a content i) := by
  cases i with
  | reset b =>
    have hb := lt_of_accOk hw rfl
    rw [accRead_congr (s := { s with acc := _ }) a (exec_reset_acc hb hx), accRead_set a _ hb]
    simp only [contentAfter, eq_comm (a := b)]
    split
    · rfl
    · exact hc
  | write b data =>
    have hb := lt_of_accOk hw rfl
    rw [accRead_congr (s := { s with acc := _ }) a (exec_write_acc hb hx), accRead_set a _ hb]
    simp only [contentAfter, eq_comm (a := b)]
    split
    · next hab => rw [← hab, hc, updateWith_crcChecksum ht]
    · exact hc
  | _ => exact (accRead_congr a (exec_acc_of_opcode hw hx nofun nofun)).trans hc

/-- One command of a program completes and keeps all that the next one needs. -/
theorem exec_keeps_checksum {s : State} {i : Instr} {a : BitVec 4} {content : List Byte} (h : Nat)
    (hw : i.accOk s.accCount = true) (ht : s.TableBuilt) (hc : accRead a s = crcChecksum content) :
    ∃ t : State, exec i { s with owner := some h } = .next t ∧ t.TableBuilt ∧ t.accCount = s.accCount ∧
      accRead a t = crcChecksum (contentAfter a content i) := by
  let u : State := { s with owner := some h }
  have hwu : i.accOk u.accCount = true := hw
  obtain ⟨t, hx⟩ := exec_completes hwu rfl
  have htt : t.TableBuilt := fun j => (congrArg (tableOf · j) (exec_table hwu hx)).trans (ht j)
  have hn := exec_accCount hwu hx
  exact ⟨t, hx, htt, hn, exec_accRead hwu ht hc hx⟩

/-- Settles O33, by induction on the program: each command completes, keeps the table and `ACC_COUNT`, and keeps the
accumulator the checksum of its contents. -/
theorem accumulatorHoldsItsChecksum : Obligations.AccumulatorHoldsItsChecksum := by
  intro s a content cmds
  induction cmds generalizing s content with
  | nil => exact fun _ _ hc _ => ⟨s, rfl, hc⟩
  | cons c cmds ih =>
    obtain ⟨h, i⟩ := c
    intro ht ha hc hwf
    obtain ⟨u, hx, htu, hn, hcu⟩ := exec_keeps_checksum h (accOk_of_wf (hwf _ List.mem_cons_self)) ht hc
    obtain ⟨t, hrun, hres⟩ := ih u (contentAfter a content i) htu (hn ▸ ha) hcu
      (fun c hmem => hn ▸ hwf c (List.mem_cons_of_mem _ hmem))
    exact ⟨t, by simpa only [execAll, hx] using hrun, hres⟩

end Sys2Proof.Machine
end

section
/-! Proofs about single steps: what every transition of acceptance keeps, how a fault is taken, and R28 and R31 of
10_state.md. -/

namespace Sys2Proof.Machine

/-! ### What every transition of acceptance keeps -/

/-- No transition of acceptance writes the table or changes the number of accumulators; inside a packet the owner stays;
at most one byte is taken, from the owner's stream; and responses are only appended, to the owner's stream. -/
structure AcceptFrame (s t : State) : Prop where
  table : t.table = s.table
  tableReady : t.tableReady = s.tableReady
  accCount : t.accCount = s.accCount
  owner : s.pstate ≠ .idle → t.owner = s.owner
  cmd : t.cmd = s.cmd ∨
    ∃ (h : Nat) (b : Byte) (rest : List Byte), s.owner = some h ∧ s.cmd.get h = b :: rest ∧ t.cmd = s.cmd.put h rest
  resp : t.resp = s.resp ∨ ∃ (h : Nat) (bytes : List Byte), s.owner = some h ∧ t.resp = s.resp.append h bytes

/-- A transition that ends in a command. -/
theorem AcceptFrame.trans_exec {s u t : State} {i : Instr} (hf : AcceptFrame s u) (hp : s.pstate ≠ .idle)
    (hr : u.resp = s.resp) (hw : i.accOk u.accCount = true) (hx : exec i u = .next t) : AcceptFrame s t where
  table := (exec_table hw hx).trans hf.table
  accCount := (exec_accCount hw hx).trans hf.accCount
  tableReady := by
    obtain ⟨h, bytes, acc, w, -, rfl, -⟩ := exec_next hw hx
    exact hf.tableReady
  owner := by
    obtain ⟨h, bytes, acc, w, -, rfl, -⟩ := exec_next hw hx
    exact hf.owner
  cmd := by
    obtain ⟨h, bytes, acc, w, -, rfl, -⟩ := exec_next hw hx
    exact hf.cmd
  resp := by
    obtain ⟨h, bytes, acc, w, ho, rfl, -⟩ := exec_next hw hx
    exact .inr ⟨h, _, (hf.owner hp).symm.trans ho, by rw [← hr]⟩

theorem AcceptCase.frame {s t : State} (hc : AcceptCase s t) : AcceptFrame s t := by
  cases hc with
  | hold ht => subst ht; exact ⟨rfl, rfl, rfl, fun _ => rfl, .inl rfl, .inl rfl⟩
  | chosen h hp hc ht => subst ht; exact ⟨rfl, rfl, rfl, fun hne => absurd hp hne, .inl rfl, .inl rfl⟩
  | hdrByte h b rest hp ho hg hl ht
  | priorByte h b rest hp ho hg hl ht
  | priorDone h b rest hp ho hg hl ht
  | payloadByte h b rest hp ho hg hr ht =>
    subst ht; exact ⟨rfl, rfl, rfl, fun _ => rfl, .inr ⟨h, b, rest, ho, hg, rfl⟩, .inl rfl⟩
  | toPrior h b0 b1 b2 b3 rest hp ho hg hb hd ht
  | toData h b0 b1 b2 b3 rest hp ho hg hb hd ht
  | toPrefix h b0 b1 b2 b3 rest hp ho hg hb hd ht =>
    subst ht; exact ⟨rfl, rfl, rfl, fun _ => rfl, .inr ⟨h, b3, rest, ho, hg, rfl⟩, .inl rfl⟩
  | illegal h b0 b1 b2 b3 rest c hp ho hg hb hd ht =>
    subst ht; exact ⟨rfl, rfl, rfl, fun _ => rfl, .inr ⟨h, b3, rest, ho, hg, rfl⟩, .inr ⟨h, _, ho, rfl⟩⟩
  | atHeader h b0 b1 b2 b3 rest op hp ho hg hb hd he hx =>
    have hf : AcceptFrame s { headerState h rest b0 b1 b2 b3 s with pstate := .idle } :=
      ⟨rfl, rfl, rfl, fun _ => rfl, .inr ⟨h, b3, rest, ho, hg, rfl⟩, .inl rfl⟩
    exact hf.trans_exec (by simp [hp]) rfl (accOk_operands hd) hx
  | atPayload op hp hr hd hx =>
    have hf : AcceptFrame s { s with pstate := .idle } := ⟨rfl, rfl, rfl, fun _ => rfl, .inl rfl, .inl rfl⟩
    exact hf.trans_exec (by rcases hp with hp | hp <;> simp [hp]) rfl (accOk_operands hd) hx
  | illegalPayload h c hp hr ho hd ht =>
    subst ht; exact ⟨rfl, rfl, rfl, fun _ => rfl, .inl rfl, .inr ⟨h, _, ho, rfl⟩⟩

/-- A step of the generator leaves the owner and the command streams alone (70_reset_and_hazards.md R196). -/
theorem GenFrame.owner_cmd {s t : State} (hf : GenFrame s t) : t.owner = s.owner ∧ t.cmd = s.cmd := by
  unfold GenFrame at hf
  constructor <;> rw [hf]

/-- What a step inside a packet does to the owner and the command streams. -/
theorem step_owner_cmd {s t : State} (hp : s.pstate ≠ .idle) (hx : step s = .next t) :
    t.owner = s.owner ∧ (t.cmd = s.cmd ∨ ∃ (h : Nat) (b : Byte) (rest : List Byte),
      s.owner = some h ∧ s.cmd.get h = b :: rest ∧ t.cmd = s.cmd.put h rest) := by
  rcases step_cases hx with ⟨-, rfl⟩ | ⟨-, -, rfl⟩ | ⟨-, -, hc⟩
  · exact ⟨rfl, .inl rfl⟩
  · obtain ⟨ho, hcmd⟩ := (genStep_frame s).owner_cmd
    exact ⟨ho, .inl hcmd⟩
  · exact ⟨hc.frame.owner hp, hc.frame.cmd⟩

/-- Settles O41: a step inside a packet keeps the owner and takes nothing, or the first byte of the owner's stream. -/
theorem ownerHoldsThePort : Obligations.OwnerHoldsThePort := by
  intro s t h hwf hp ho hx
  obtain ⟨hown, hcmd⟩ := step_owner_cmd hp hx
  refine ⟨fun k hk => ?_, ?_, hown.trans ho⟩
  · rcases hcmd with hcmd | ⟨h', b, rest, ho', hg, hcmd⟩
    · rw [hcmd]
    · obtain rfl : h' = h := Option.some.inj (ho'.symm.trans ho)
      rw [hcmd, Streams.get_put hwf, if_neg hk]
  · rcases hcmd with hcmd | ⟨h', b, rest, ho', hg, hcmd⟩
    · exact ⟨[], by simp [hcmd]⟩
    · obtain rfl : h' = h := Option.some.inj (ho'.symm.trans ho)
      exact ⟨[b], by simp [hcmd, Streams.get_put hwf, hg]⟩

/-! ### How a fault is taken (60_exceptions.md R172, R173) -/

/-- A transition from `s` to `t` faults on the illegal header it has just completed, or on the one in `H` (which no run
reaches, entry 16). -/
structure TakesFault (s t : State) (c : Cause) : Prop where
  faulted : t.faulted = true
  cause : t.faultCause = c.code
  idle : t.pstate = .idle
  illegal : decodeHeader s.accCount t.faultHdr = .illegal c
  header :
    (∃ (h : Nat) (b : Byte) (rest : List Byte), s.pstate = .hdr ∧ s.owner = some h ∧ s.cmd.get h = b :: rest ∧
      be32 t.faultHdr = s.hdrBuf ++ [b]) ∨
    ((s.pstate = .data ∨ s.pstate = .pfx) ∧ t.faultHdr = s.hdr)

/-- The fault registers are as they were. -/
def SameFault (s t : State) : Prop :=
  t.faulted = s.faulted ∧ t.faultCause = s.faultCause ∧ t.faultHdr = s.faultHdr

theorem exec_sameFault {s t : State} {i : Instr} (hw : i.accOk s.accCount = true) (hx : exec i s = .next t) :
    SameFault s t := by
  obtain ⟨h, bytes, acc, w, -, rfl, -⟩ := exec_next hw hx
  exact ⟨rfl, rfl, rfl⟩

theorem GenFrame.sameFault {s t : State} (hf : GenFrame s t) : SameFault s t := by
  unfold GenFrame at hf
  rw [hf]
  exact ⟨rfl, rfl, rfl⟩

/-- A transition of acceptance leaves the fault registers alone or takes a fault. -/
theorem AcceptCase.fault {s t : State} (hc : AcceptCase s t) : SameFault s t ∨ ∃ c : Cause, TakesFault s t c := by
  cases hc with
  | hold ht | chosen h hp hc ht | hdrByte h b rest hp ho hg hl ht | toPrior h b0 b1 b2 b3 rest hp ho hg hb hd ht
  | toData h b0 b1 b2 b3 rest hp ho hg hb hd ht | toPrefix h b0 b1 b2 b3 rest hp ho hg hb hd ht
  | priorByte h b rest hp ho hg hl ht | priorDone h b rest hp ho hg hl ht | payloadByte h b rest hp ho hg hr ht =>
    subst ht; exact .inl ⟨rfl, rfl, rfl⟩
  | illegal h b0 b1 b2 b3 rest c hp ho hg hb hd ht =>
    subst ht
    exact .inr ⟨c, rfl, rfl, rfl, hd, .inl ⟨h, b3, rest, hp, ho, hg, by rw [hb]; exact be32_inv_bytes b0 b1 b2 b3⟩⟩
  | atHeader h b0 b1 b2 b3 rest op hp ho hg hb hd he hx =>
    exact .inl (exec_sameFault (s := { headerState h rest b0 b1 b2 b3 s with pstate := .idle }) (accOk_operands hd) hx)
  | atPayload op hp hr hd hx =>
    exact .inl (exec_sameFault (s := { s with pstate := .idle }) (accOk_operands hd) hx)
  | illegalPayload h c hp hr ho hd ht => subst ht; exact .inr ⟨c, rfl, rfl, rfl, hd, .inr ⟨hp, rfl⟩⟩

/-- In every state of the parser that waits for a payload, `H` is legal (30_encoding.md R74). -/
theorem State.ParserOk.hdr_legal {s : State} (hs : s.ParserOk) (hp : s.pstate = .data ∨ s.pstate = .pfx) :
    ∃ op : Opcode, decodeHeader s.accCount s.hdr = .legal op := by
  obtain ⟨-, -, hs⟩ := hs
  rcases hp with hp | hp <;> rw [hp] at hs
  · obtain ⟨-, -, hd | hd | ⟨hd, -⟩, -⟩ := hs <;> exact ⟨_, hd⟩
  · exact ⟨_, hs.2.2.1⟩

/-- A step that sets `FAULTED` takes a fault. -/
theorem step_takesFault {s t : State} (hx : step s = .next t) (hf : s.faulted = false) (ht : t.faulted = true) :
    ∃ c : Cause, TakesFault s t c := by
  have hno : ¬ SameFault s t := fun h => by simp [h.1, hf] at ht
  rcases step_cases hx with ⟨-, rfl⟩ | ⟨-, -, rfl⟩ | ⟨-, -, hc⟩
  · exact absurd ⟨rfl, rfl, rfl⟩ hno
  · exact absurd (genStep_frame s).sameFault hno
  · exact hc.fault.resolve_left hno

/-- Of all events only hardware reset can clear `FAULTED` (10_state.md R31). -/
theorem applyEvent_faulted {s t : State} {e : HostEvent} (hs : s.faulted = true) (he : e ≠ .hardwareReset)
    (hx : applyEvent e s = .next t) : t.faulted = true := by
  cases e with
  | tick =>
    obtain rfl : s = t := Host.Outcome.next.inj ((step_frozen hs).symm.trans hx)
    exact hs
  | send h bytes => cases hx; exact hs
  | take h n => cases hx; exact hs
  | hardwareReset => exact absurd rfl he

/-- Settles O45: a fault is taken on a header just completed, since the invariant has `H` legal where a payload is
awaited; and no event but hardware reset clears the registers. -/
theorem onlyIllegalHeadersFault : Obligations.OnlyIllegalHeadersFault := by
  refine ⟨fun s t hinv hx hf ht => ?_, fun s t e hs hx ht => ?_, fun s t hx => ?_⟩
  · obtain ⟨c, htf⟩ := step_takesFault hx hf ht
    obtain ⟨h, b, rest, hp, ho, hg, hb⟩ | ⟨hp, hh⟩ := htf.header
    · exact ⟨h, b, rest, c, hp, ho, hg, hb, htf.illegal, by rw [htf.cause]; cases c <;> rfl⟩
    · obtain ⟨op, hd⟩ := hinv.parser_ok.hdr_legal hp
      have hill := htf.illegal
      rw [hh, hd] at hill
      cases hill
  · by_contra he
    simp [applyEvent_faulted hs he hx] at ht
  · cases hx
    exact ⟨rfl, rfl, rfl⟩

end Sys2Proof.Machine
end

section
/-! Proofs about the invariant: it holds after reset (10_state.md R34) and every step keeps it. -/

namespace Sys2Proof.Machine

/-! ### The reset state -/

/-- Settles O51: each value is the one `State.resetWith` lists. -/
theorem resetValues : Obligations.ResetValues :=
  fun _ _ _ => ⟨rfl, rfl, rfl, rfl, rfl, rfl, rfl, rfl, rfl, rfl, rfl, rfl, rfl, fun _ => rfl, rfl⟩

theorem initialTable_wf (impl : TableImpl) : (initialTable impl).wf = true := by
  cases impl with
  | generated => rfl
  | rom => exact builtTable_wf

theorem resetWith_genOk (n latency : Nat) (impl : TableImpl) : (State.resetWith n latency impl).GenOk := by
  cases impl with
  | generated => exact ⟨rfl, rfl, Nat.succ_pos 255, rfl, fun h => absurd h (Nat.lt_irrefl 0)⟩
  | rom => exact ⟨rfl, rfl, rfl⟩

theorem resetWith_inv {n : Nat} (latency : Nat) (impl : TableImpl) (h1 : 1 ≤ n) (h16 : n ≤ 16) :
    (State.resetWith n latency impl).Inv where
  accCount_pos := by simpa [State.accCount, State.resetWith] using h1
  accCount_le := by simpa [State.accCount, State.resetWith, Config.accMax] using h16
  table_wf := initialTable_wf impl
  table_built h := by cases h
  gen_ok _ := resetWith_genOk n latency impl
  parser_ok := ⟨Nat.zero_le 4, Nat.zero_le 4, trivial⟩
  fault_ok := ⟨rfl, rfl⟩
  cmd_wf := rfl
  resp_wf := rfl

/-- Settles O52: the reference configuration is one of those allowed. -/
theorem resetHasTheInvariant : Obligations.ResetHasTheInvariant :=
  ⟨resetWith_inv 1 .generated (by decide) (by decide), fun _ latency impl => resetWith_inv latency impl⟩

/-! ### The generator keeps the invariant -/

theorem State.GenOk.table_wf {s : State} (h : s.GenOk) : s.table.wf = true := by
  obtain ⟨-, -, h⟩ := h
  cases hi : s.tableImpl with
  | rom =>
    simp only [hi] at h
    rw [h]
    exact builtTable_wf
  | generated =>
    simp only [hi] at h
    obtain ⟨hidx, htab, -⟩ := h
    rw [htab]
    exact wfFrom_entriesFrom (Nat.le_refl 0) (by omega)

/-- What the generator does not move keeps its part of the invariant. -/
theorem State.Inv.of_genFrame {s t : State} (hs : s.Inv) (hf : GenFrame s t) (htab : t.table.wf = true)
    (hready : t.tableReady = true → t.table = builtTable) (hgen : t.tableReady = false → t.GenOk) : t.Inv := by
  unfold GenFrame at hf
  rw [hf] at *
  exact ⟨hs.accCount_pos, hs.accCount_le, htab, hready, hgen, hs.parser_ok, hs.fault_ok, hs.cmd_wf, hs.resp_wf⟩

theorem genStep_inv {s : State} (hs : s.Inv) (hr : s.tableReady = false) : (genStep s).Inv := by
  by_cases hl : s.genLeft ≤ 1
  · obtain ⟨hready, htab⟩ := genStep_last (hs.gen_ok hr) hl
    exact hs.of_genFrame (genStep_frame s) (htab ▸ builtTable_wf) (fun _ => htab) (fun h => by simp [hready] at h)
  · obtain ⟨hready, -, hgen⟩ := genStep_earlier (hs.gen_ok hr) hr hl
    exact hs.of_genFrame (genStep_frame s) hgen.table_wf (fun h => by simp [hready] at h) (fun _ => hgen)

/-! ### What the parser holds, by `PSTATE` (10_state.md R28) -/

theorem parserOk_idle {s : State} (hp : s.pstate = .idle) :
    s.ParserOk ↔ s.hdrBuf.length ≤ 4 ∧ s.priorBuf.length ≤ 4 := by
  simp [State.ParserOk, hp]

theorem parserOk_hdr {s : State} (hp : s.pstate = .hdr) :
    s.ParserOk ↔ s.hdrBuf.length < 4 ∧ s.priorBuf.length ≤ 4 ∧ s.owner.isSome = true := by
  simp only [State.ParserOk, hp]
  constructor
  · rintro ⟨-, hb, ho, hl⟩; exact ⟨hl, hb, ho⟩
  · rintro ⟨hl, hb, ho⟩; exact ⟨by omega, hb, ho, hl⟩

theorem parserOk_prior {s : State} (hp : s.pstate = .prior) :
    s.ParserOk ↔ s.priorBuf.length < 4 ∧ s.owner.isSome = true ∧ s.hdrBuf = be32 s.hdr ∧
      decodeHeader s.accCount s.hdr = .legal .update := by
  simp only [State.ParserOk, hp]
  constructor
  · rintro ⟨-, -, ho, hh, hd, hl⟩; exact ⟨hl, ho, hh, hd⟩
  · rintro ⟨hl, ho, hh, hd⟩; exact ⟨by simp [hh], by omega, ho, hh, hd, hl⟩

/-- The header of a packet whose payload goes to `DATA`, `PRIOR` having arrived where there is one. -/
def DataHeader (s : State) : Prop :=
  decodeHeader s.accCount s.hdr = .legal .checksum ∨ decodeHeader s.accCount s.hdr = .legal .write ∨
    (decodeHeader s.accCount s.hdr = .legal .update ∧ s.priorBuf.length = 4)

theorem parserOk_data {s : State} (hp : s.pstate = .data) :
    s.ParserOk ↔ s.priorBuf.length ≤ 4 ∧ s.owner.isSome = true ∧ s.hdrBuf = be32 s.hdr ∧ DataHeader s ∧
      s.payload.length + s.remain.toNat = (immField s.hdr).toNat := by
  simp only [State.ParserOk, hp]
  constructor
  · rintro ⟨-, hb, ho, hh, hd, hl⟩; exact ⟨hb, ho, hh, hd, hl⟩
  · rintro ⟨hb, ho, hh, hd, hl⟩; exact ⟨by simp [hh], hb, ho, hh, hd, hl⟩

theorem parserOk_pfx {s : State} (hp : s.pstate = .pfx) :
    s.ParserOk ↔ s.priorBuf.length ≤ 4 ∧ s.owner.isSome = true ∧ s.hdrBuf = be32 s.hdr ∧
      decodeHeader s.accCount s.hdr = .legal .sum ∧
      s.payload.length + s.remain.toNat = (immField s.hdr).toNat := by
  simp only [State.ParserOk, hp]
  constructor
  · rintro ⟨-, hb, ho, hh, hd, hl⟩; exact ⟨hb, ho, hh, hd, hl⟩
  · rintro ⟨hb, ho, hh, hd, hl⟩; exact ⟨by simp [hh], hb, ho, hh, hd, hl⟩

theorem exec_parserOk {s t : State} {i : Instr} (hw : i.accOk s.accCount = true) (hp : s.pstate = .idle)
    (hs : s.ParserOk) (hx : exec i s = .next t) : t.ParserOk := by
  obtain ⟨h, bytes, acc, w, -, rfl, -⟩ := exec_next hw hx
  exact (parserOk_idle (by exact hp)).mpr ((parserOk_idle hp).mp hs)

/-- One payload byte more, and one remaining less, announce the same length. -/
theorem payload_remain {data : List Byte} {b : Byte} {r : BitVec 24} {n : Nat} (hr : r ≠ 0#24)
    (h : data.length + r.toNat = n) : (data ++ [b]).length + (r - 1#24).toNat = n := by
  have hpos : 0 < r.toNat := Nat.pos_of_ne_zero fun hz => hr (BitVec.eq_of_toNat_eq hz)
  have hsub : (r - 1#24).toNat = r.toNat - 1 := by bv_omega
  rw [List.length_append, hsub, List.length_singleton]
  omega

/-- Every transition of acceptance keeps what the parser holds. -/
theorem AcceptCase.parserOk {s t : State} (hs : s.ParserOk) (hc : AcceptCase s t) : t.ParserOk := by
  have hbuf4 : s.hdrBuf.length ≤ 4 := hs.1
  have hprior4 : s.priorBuf.length ≤ 4 := hs.2.1
  cases hc with
  | hold ht => exact ht ▸ hs
  | chosen h hp hc ht => subst ht; exact (parserOk_hdr rfl).mpr ⟨by simp, hprior4, rfl⟩
  | hdrByte h b rest hp ho hg hl ht =>
    subst ht
    obtain ⟨hlt, -, hown⟩ := (parserOk_hdr hp).mp hs
    exact (parserOk_hdr (by exact hp)).mpr ⟨by simp; omega, hprior4, hown⟩
  | illegal h b0 b1 b2 b3 rest c hp ho hg hb hd ht =>
    subst ht; exact (parserOk_idle rfl).mpr ⟨Nat.le_refl 4, hprior4⟩
  | toPrior h b0 b1 b2 b3 rest hp ho hg hb hd ht =>
    subst ht
    exact (parserOk_prior rfl).mpr ⟨by simp, by simp [headerState, ho], (be32_inv_bytes b0 b1 b2 b3).symm, hd⟩
  | toData h b0 b1 b2 b3 rest hp ho hg hb hd ht =>
    subst ht
    exact (parserOk_data rfl).mpr ⟨hprior4, by simp [headerState, ho], (be32_inv_bytes b0 b1 b2 b3).symm,
      hd.imp_right .inl, Nat.zero_add _⟩
  | toPrefix h b0 b1 b2 b3 rest hp ho hg hb hd ht =>
    subst ht
    exact (parserOk_pfx rfl).mpr ⟨hprior4, by simp [headerState, ho], (be32_inv_bytes b0 b1 b2 b3).symm, hd,
      Nat.zero_add _⟩
  | atHeader h b0 b1 b2 b3 rest op hp ho hg hb hd he hx =>
    refine exec_parserOk (s := { headerState h rest b0 b1 b2 b3 s with pstate := .idle }) (accOk_operands hd) rfl ?_ hx
    exact (parserOk_idle rfl).mpr ⟨Nat.le_refl 4, hprior4⟩
  | priorByte h b rest hp ho hg hl ht =>
    subst ht
    obtain ⟨hlt, hown, hh, hd⟩ := (parserOk_prior hp).mp hs
    exact (parserOk_prior (by exact hp)).mpr ⟨by simp; omega, hown, hh, hd⟩
  | priorDone h b rest hp ho hg hl ht =>
    subst ht
    obtain ⟨hlt, hown, hh, hd⟩ := (parserOk_prior hp).mp hs
    have hl4 : (s.priorBuf ++ [b]).length = 4 := by simp [hl]
    exact (parserOk_data rfl).mpr ⟨hl4.le, hown, hh, .inr (.inr ⟨hd, hl4⟩), Nat.zero_add _⟩
  | payloadByte h b rest hp ho hg hr ht =>
    subst ht
    rcases hp with hp | hp
    · obtain ⟨-, hown, hh, hd, hl⟩ := (parserOk_data hp).mp hs
      exact (parserOk_data (by exact hp)).mpr ⟨hprior4, hown, hh, hd, payload_remain hr hl⟩
    · obtain ⟨-, hown, hh, hd, hl⟩ := (parserOk_pfx hp).mp hs
      exact (parserOk_pfx (by exact hp)).mpr ⟨hprior4, hown, hh, hd, payload_remain hr hl⟩
  | atPayload op hp hr hd hx =>
    refine exec_parserOk (s := { s with pstate := .idle }) (accOk_operands hd) rfl ?_ hx
    exact (parserOk_idle rfl).mpr ⟨hbuf4, hprior4⟩
  | illegalPayload h c hp hr ho hd ht => subst ht; exact (parserOk_idle rfl).mpr ⟨hbuf4, hprior4⟩

/-! ### The fault registers and the streams -/

theorem faultOk_clear {s : State} (hf : s.faulted = false) :
    s.FaultOk ↔ s.faultCause = 0#8 ∧ s.faultHdr = 0#32 := by
  simp [State.FaultOk, hf]

theorem faultOk_set {s : State} (hf : s.faulted = true) :
    s.FaultOk ↔ s.pstate = .idle ∧
      ∃ c : Cause, decodeHeader s.accCount s.faultHdr = .illegal c ∧ s.faultCause = c.code := by
  simp [State.FaultOk, hf]

theorem AcceptCase.faultOk {s t : State} (hf : s.faulted = false) (hs : s.FaultOk) (hc : AcceptCase s t) :
    t.FaultOk := by
  obtain ⟨hfaulted, hcause, hhdr⟩ | ⟨c, htf⟩ := hc.fault
  · rw [faultOk_clear (hfaulted.trans hf), hcause, hhdr]
    exact (faultOk_clear hf).mp hs
  · rw [faultOk_set htf.faulted, hc.frame.accCount]
    exact ⟨htf.idle, c, htf.illegal, htf.cause⟩

theorem AcceptFrame.cmd_wf {s t : State} (hf : AcceptFrame s t) (hs : s.cmd.wf = true) : t.cmd.wf = true := by
  obtain hcmd | ⟨h, b, rest, -, -, hcmd⟩ := hf.cmd <;> rw [hcmd]
  · exact hs
  · exact Streams.wf_put h rest hs

theorem AcceptFrame.resp_wf {s t : State} (hf : AcceptFrame s t) (hs : s.resp.wf = true) : t.resp.wf = true := by
  obtain hresp | ⟨h, bytes, -, hresp⟩ := hf.resp <;> rw [hresp]
  · exact hs
  · exact Streams.wf_append h bytes hs

theorem AcceptCase.inv {s t : State} (hs : s.Inv) (hf : s.faulted = false) (hr : s.tableReady = true)
    (hc : AcceptCase s t) : t.Inv where
  accCount_pos := hc.frame.accCount ▸ hs.accCount_pos
  accCount_le := hc.frame.accCount ▸ hs.accCount_le
  table_wf := hc.frame.table ▸ hs.table_wf
  table_built _ := hc.frame.table.trans (hs.table_built hr)
  gen_ok h := by simp [hc.frame.tableReady, hr] at h
  parser_ok := hc.parserOk hs.parser_ok
  fault_ok := hc.faultOk hf hs.fault_ok
  cmd_wf := hc.frame.cmd_wf hs.cmd_wf
  resp_wf := hc.frame.resp_wf hs.resp_wf

/-- Settles O53: a frozen CORE stays, and both the generator and acceptance keep the invariant. -/
theorem stepKeepsTheInvariant : Obligations.StepKeepsTheInvariant := by
  intro s t hs hx
  rcases step_cases hx with ⟨-, rfl⟩ | ⟨-, hr, rfl⟩ | ⟨hf, hr, hc⟩
  · exact hs
  · exact genStep_inv hs hr
  · exact hc.inv hs hf hr

end Sys2Proof.Machine
end

section
/-! Proofs about the response streams (10_state.md R32): a step appends to the owner's stream and reads none. -/

namespace Sys2Proof.Machine

/-! ### The branches of acceptance as equations (30_encoding.md R74) -/

theorem respond_of_no_owner {s : State} (bytes : List Byte) (ho : s.owner = none) :
    respond bytes s = .fault .noOwner := by
  simp only [respond, ho]

theorem headerArrived_illegal {s : State} {hdr : Word} {c : Cause}
    (hd : decodeHeader s.accCount hdr = .illegal c) : headerArrived hdr s = raiseFault c hdr s := by
  simp only [headerArrived, hd]

theorem headerArrived_update {s : State} {hdr : Word} (hd : decodeHeader s.accCount hdr = .legal .update) :
    headerArrived hdr s = .next { s with pstate := .prior, priorBuf := [] } := by
  simp only [headerArrived, hd]

theorem headerArrived_data {s : State} {hdr : Word}
    (hd : decodeHeader s.accCount hdr = .legal .checksum ∨ decodeHeader s.accCount hdr = .legal .write) :
    headerArrived hdr s = .next { s with pstate := .data, remain := immField hdr, payload := [] } := by
  rcases hd with hd | hd <;> simp only [headerArrived, hd]

theorem headerArrived_sum {s : State} {hdr : Word} (hd : decodeHeader s.accCount hdr = .legal .sum) :
    headerArrived hdr s = .next { s with pstate := .pfx, remain := immField hdr, payload := [] } := by
  simp only [headerArrived, hd]

theorem headerArrived_endsWithHeader {s : State} {hdr : Word} {op : Opcode}
    (hd : decodeHeader s.accCount hdr = .legal op) (he : endsWithHeader op = true) :
    headerArrived hdr s = execute s := by
  cases op with
  | checksum | update | write | sum => cases he
  | _ => simp only [headerArrived, hd]

theorem acceptHdr_hold {s : State} (hb : takeByte s = none) : acceptHdr s = .next s := by
  simp only [acceptHdr, hb]

theorem acceptHdr_fourth {s t : State} {b b0 b1 b2 b3 : Byte} (hb : takeByte s = some (b, t))
    (hl : t.hdrBuf ++ [b] = [b0, b1, b2, b3]) :
    acceptHdr s = headerArrived (be32inv b0 b1 b2 b3)
      { t with hdrBuf := [b0, b1, b2, b3], hdr := be32inv b0 b1 b2 b3 } := by
  simp only [acceptHdr, hb, hl]

theorem acceptHdr_other {s t : State} {b : Byte} (hb : takeByte s = some (b, t))
    (hl : (t.hdrBuf ++ [b]).length ≠ 4) : acceptHdr s = .next { t with hdrBuf := t.hdrBuf ++ [b] } := by
  simp only [acceptHdr, hb]
  split
  · next heq => exact absurd (congrArg List.length heq) hl
  · rfl

theorem acceptPayload_done {s : State} (hr : s.remain = 0#24) : acceptPayload s = execute s := if_pos hr

theorem acceptPayload_hold {s : State} (hr : s.remain ≠ 0#24) (hb : takeByte s = none) :
    acceptPayload s = .next s := by
  simp only [acceptPayload, if_neg hr, hb]

theorem acceptPayload_byte {s t : State} {b : Byte} (hr : s.remain ≠ 0#24) (hb : takeByte s = some (b, t)) :
    acceptPayload s = .next { t with payload := t.payload ++ [b], remain := t.remain - 1#24 } := by
  simp only [acceptPayload, if_neg hr, hb]

theorem accept_idle {s : State} (hp : s.pstate = .idle) : accept s = .next (acceptIdle s) := by
  simp only [accept, hp]

theorem accept_hdr {s : State} (hp : s.pstate = .hdr) : accept s = acceptHdr s := by
  simp only [accept, hp]

theorem accept_prior {s : State} (hp : s.pstate = .prior) : accept s = .next (acceptPrior s) := by
  simp only [accept, hp]

theorem accept_payload {s : State} (hp : s.pstate = .data ∨ s.pstate = .pfx) : accept s = acceptPayload s := by
  rcases hp with hp | hp <;> simp only [accept, hp]

/-! ### What neither reads nor writes the response streams -/

/-- The state with `r` in its response streams. -/
def withResp (r : Streams) (s : State) : State := { s with resp := r }

theorem takeByte_withResp (r : Streams) (s : State) :
    takeByte (withResp r s) = (takeByte s).map fun bt => (bt.1, withResp r bt.2) := by
  simp only [takeByte, withResp]
  split
  · rfl
  · split <;> rfl

theorem takeByte_withResp_some {s t : State} {b : Byte} (r : Streams) (hb : takeByte s = some (b, t)) :
    takeByte (withResp r s) = some (b, withResp r t) := by
  rw [takeByte_withResp, hb]
  rfl

theorem takeByte_withResp_none {s : State} (r : Streams) (hb : takeByte s = none) :
    takeByte (withResp r s) = none := by
  rw [takeByte_withResp, hb]
  rfl

theorem acceptIdle_withResp (r : Streams) (s : State) : acceptIdle (withResp r s) = withResp r (acceptIdle s) := by
  simp only [acceptIdle, withResp]
  split <;> rfl

theorem acceptPrior_withResp (r : Streams) (s : State) :
    acceptPrior (withResp r s) = withResp r (acceptPrior s) := by
  simp only [acceptPrior, takeByte_withResp]
  cases takeByte s with
  | none => rfl
  | some bt =>
    simp only [Option.map_some, withResp]
    split <;> rfl

theorem genTick_withResp (r : Streams) (s : State) : genTick (withResp r s) = withResp r (genTick s) := by
  simp only [genTick, apply_ite (withResp r)]
  rfl

theorem genEntries_withResp (n : Nat) (r : Streams) (s : State) :
    genEntries n (withResp r s) = withResp r (genEntries n s) := by
  induction n generalizing s with
  | zero => rfl
  | succ n ih => exact ih (genEntry s)

theorem genStep_withResp (r : Streams) (s : State) : genStep (withResp r s) = withResp r (genStep s) := by
  have htick := genTick_withResp r { s with genLeft := s.genLeft - 1 }
  have hentries := genEntries_withResp (entriesLeft s) r s
  have hlast : { genEntries (entriesLeft s) (withResp r s) with tableReady := true, genLeft := 0 } =
      withResp r { genEntries (entriesLeft s) s with tableReady := true, genLeft := 0 } := by
    rw [hentries]
    rfl
  simp only [genStep, apply_ite (withResp r), ← htick, ← hlast]
  rfl

/-! ### Outcomes as functions of the response streams -/

/-- What an outcome may be as a function of the contents `r` of the response streams, for the owner `o`: they stay, or
bytes join the end of the owner's, or the machine stops. Which of the three it is, the bytes, and everything else in the
next state are the same for every `r`. -/
inductive RespBlind (o : Option Nat) (out : Streams → Result) : Prop where
  | keeps (u : State) (h : ∀ r, out r = .next (withResp r u))
  | appends (u : State) (k : Nat) (b : Byte) (bs : List Byte) (ho : o = some k)
      (h : ∀ r, out r = .next (withResp (r.append k (b :: bs)) u))
  | stops (f : Fault) (h : ∀ r, out r = .fault f)

theorem RespBlind.of_eq {o : Option Nat} {out out' : Streams → Result} (h : ∀ r, out r = out' r)
    (hb : RespBlind o out') : RespBlind o out := funext h ▸ hb

theorem respond_respBlind (b : Byte) (bs : List Byte) (s : State) :
    RespBlind s.owner fun r => respond (b :: bs) (withResp r s) := by
  obtain ho | ⟨k, ho⟩ := Option.eq_none_or_eq_some s.owner
  · exact .stops .noOwner fun r => respond_of_no_owner (s := withResp r s) _ ho
  · exact .appends s k b bs ho fun r => respond_of_owner (s := withResp r s) _ ho

theorem raiseFault_respBlind (c : Cause) (hdr : Word) (s : State) :
    RespBlind s.owner fun r => raiseFault c hdr (withResp r s) :=
  respond_respBlind c.code [] { s with faulted := true, faultCause := c.code, faultHdr := hdr, pstate := .idle }

theorem exec_respBlind {s : State} {i : Instr} (hw : i.accOk s.accCount = true) :
    RespBlind s.owner fun r => exec i (withResp r s) := by
  obtain ⟨bytes, acc, w, hx, -⟩ := exec_of_accOk_resp hw
  exact .of_eq hx (respond_respBlind 0x00#8 bytes { s with acc := acc, w := w })

theorem execute_respBlind (s : State) : RespBlind s.owner fun r => execute (withResp r s) := by
  cases hd : decodeHeader s.accCount s.hdr with
  | legal op =>
    exact .of_eq (fun r => execute_legal (s := withResp r s) hd)
      (exec_respBlind (s := { s with pstate := .idle }) (accOk_operands hd))
  | illegal c =>
    exact .of_eq (fun r => execute_illegal (s := withResp r s) hd) (raiseFault_respBlind c s.hdr s)

theorem headerArrived_respBlind (hdr : Word) (s : State) :
    RespBlind s.owner fun r => headerArrived hdr (withResp r s) := by
  cases hd : decodeHeader s.accCount hdr with
  | illegal c =>
    exact .of_eq (fun r => headerArrived_illegal (s := withResp r s) hd) (raiseFault_respBlind c hdr s)
  | legal op =>
    have run (he : endsWithHeader op = true) : RespBlind s.owner fun r => headerArrived hdr (withResp r s) :=
      .of_eq (fun r => headerArrived_endsWithHeader (s := withResp r s) hd he) (execute_respBlind s)
    cases op with
    | update => exact .keeps { s with pstate := .prior, priorBuf := [] } fun r => headerArrived_update hd
    | checksum =>
      exact .keeps { s with pstate := .data, remain := immField hdr, payload := [] } fun r =>
        headerArrived_data (.inl hd)
    | write =>
      exact .keeps { s with pstate := .data, remain := immField hdr, payload := [] } fun r =>
        headerArrived_data (.inr hd)
    | sum =>
      exact .keeps { s with pstate := .pfx, remain := immField hdr, payload := [] } fun r => headerArrived_sum hd
    | reset | sum32 | size | bsize | tblrd => exact run rfl

theorem acceptHdr_respBlind (s : State) : RespBlind s.owner fun r => acceptHdr (withResp r s) := by
  cases hb : takeByte s with
  | none => exact .keeps s fun r => acceptHdr_hold (takeByte_withResp_none r hb)
  | some bt =>
    obtain ⟨b, t⟩ := bt
    have hown : t.owner = s.owner := by
      obtain ⟨h, rest, -, -, rfl⟩ := takeByte_cases hb
      rfl
    by_cases hl : (t.hdrBuf ++ [b]).length = 4
    · obtain ⟨b0, b1, b2, b3, hl⟩ := List.length_eq_four.mp hl
      rw [← hown]
      exact .of_eq (fun r => acceptHdr_fourth (takeByte_withResp_some r hb) hl) (headerArrived_respBlind (be32inv b0 b1 b2 b3)
        { t with hdrBuf := [b0, b1, b2, b3], hdr := be32inv b0 b1 b2 b3 })
    · exact .keeps { t with hdrBuf := t.hdrBuf ++ [b] } fun r => acceptHdr_other (takeByte_withResp_some r hb) hl

theorem acceptPayload_respBlind (s : State) : RespBlind s.owner fun r => acceptPayload (withResp r s) := by
  by_cases hr : s.remain = 0#24
  · exact .of_eq (fun r => acceptPayload_done (s := withResp r s) hr) (execute_respBlind s)
  · cases hb : takeByte s with
    | none => exact .keeps s fun r => acceptPayload_hold hr (takeByte_withResp_none r hb)
    | some bt =>
      obtain ⟨b, t⟩ := bt
      exact .keeps { t with payload := t.payload ++ [b], remain := t.remain - 1#24 } fun r =>
        acceptPayload_byte (s := withResp r s) hr (takeByte_withResp_some r hb)

theorem accept_respBlind (s : State) : RespBlind s.owner fun r => accept (withResp r s) := by
  have payload (hp : s.pstate = .data ∨ s.pstate = .pfx) : RespBlind s.owner fun r => accept (withResp r s) :=
    .of_eq (fun r => accept_payload (s := withResp r s) hp) (acceptPayload_respBlind s)
  cases hp : s.pstate with
  | idle => exact .keeps (acceptIdle s) fun r => (accept_idle (s := withResp r s) hp).trans (congrArg _ (acceptIdle_withResp r s))
  | hdr => exact .of_eq (fun r => accept_hdr (s := withResp r s) hp) (acceptHdr_respBlind s)
  | prior => exact .keeps (acceptPrior s) fun r => (accept_prior (s := withResp r s) hp).trans (congrArg _ (acceptPrior_withResp r s))
  | data => exact payload (.inl hp)
  | pfx => exact payload (.inr hp)

/-- A step never reads a response back, and appends to the owner's stream only (10_state.md R32). -/
theorem step_respBlind (s : State) : RespBlind s.owner fun r => step (withResp r s) := by
  cases hf : s.faulted with
  | true => exact .keeps s fun r => step_frozen hf
  | false =>
    cases hr : s.tableReady with
    | false =>
      exact .keeps (genStep s) fun r => (step_generate (s := withResp r s) hf hr).trans (congrArg _ (genStep_withResp r s))
    | true => exact .of_eq (fun r => step_accept (s := withResp r s) hf hr) (accept_respBlind s)

/-- The bytes appended for host `h` when `bs` are appended to the stream of host `k`. -/
def bytesFor (k : Nat) (bs : List Byte) (h : Nat) : List Byte := if h = k then bs else []

theorem get_append_bytesFor (m : Streams) (k h : Nat) (b : Byte) (bs : List Byte) :
    (m.append k (b :: bs)).get h = m.get h ++ bytesFor k (b :: bs) h := by
  rw [Streams.get_append_cons, bytesFor]
  split
  · next heq => rw [heq]
  · rw [List.append_nil]

/-- Settles O42: the bytes are the ones `step_respBlind` finds, for the owner. -/
theorem responsesAreOnlyAppended : Obligations.ResponsesAreOnlyAppended := by
  intro s t hx
  cases step_respBlind s with
  | keeps u h =>
    obtain rfl : withResp s.resp u = t := Host.Outcome.next.inj ((h s.resp).symm.trans hx)
    exact ⟨fun _ => [], fun _ _ => rfl, fun _ => (List.append_nil _).symm,
      fun r => ⟨_, h r, rfl, fun _ => (List.append_nil _).symm⟩⟩
  | appends u k b bs ho h =>
    obtain rfl : withResp (s.resp.append k (b :: bs)) u = t :=
      Host.Outcome.next.inj ((h s.resp).symm.trans hx)
    refine ⟨bytesFor k (b :: bs), fun j hj => if_neg fun hjk => hj (by rw [hjk, ho]), fun j => ?_, fun r => ?_⟩
    · exact get_append_bytesFor s.resp k j b bs
    · exact ⟨withResp (r.append k (b :: bs)) u, h r, rfl, fun j => get_append_bytesFor r k j b bs⟩
  | stops f h => cases (h s.resp).symm.trans hx

end Sys2Proof.Machine
end

section
/-! Proofs about the reading commands (20_memory.md R50) and about when the accumulators change (20_memory.md R49,
10_state.md R24). -/

namespace Sys2Proof.Machine

/-! ### The reading commands -/

/-- A reading command does nothing but respond. -/
theorem exec_read {s : State} {i : Instr} (hw : i.accOk s.accCount = true)
    (hop : i.opcode ∈ [Opcode.sum32, Opcode.sum, Opcode.size, Opcode.bsize, Opcode.tblrd]) :
    ∃ bytes : List Byte, exec i s = respond (okResponse bytes) s := by
  cases i with
  | sum32 a | sum a pre => exact ⟨_, withAcc_of_lt _ _ (lt_of_accOk hw rfl)⟩
  | size | bsize | tblrd idx => exact ⟨_, rfl⟩
  | checksum data | update prior data | reset a | write a data => simp [Instr.opcode] at hop

/-- Settles O27: a reading command only responds, and a response joins the owner's stream alone. -/
theorem readsHaveNoSideEffects : Obligations.ReadsHaveNoSideEffects := by
  intro s t i hop hw hx
  obtain ⟨bytes, he⟩ := exec_read (accOk_of_wf hw) hop
  obtain ⟨h, ho, rfl⟩ := respond_next (he.symm.trans hx)
  refine ⟨rfl, fun k hk => ?_⟩
  have hkh : k ≠ h := fun heq => hk (heq ▸ ho)
  exact (Streams.get_append_cons s.resp h k statusOk bytes).trans (if_neg hkh)

/-! ### When the accumulators change -/

/-- A transition from `s` to `t` ends the packet of a `RESET` or `WRITE` and writes the accumulator its header names. -/
structure EndsAccPacket (s t : State) : Prop where
  inPacket : s.pstate ≠ .idle
  idle : t.pstate = .idle
  faulted : t.faulted = s.faulted
  header : decodeHeader s.accCount t.hdr = .legal .reset ∨ decodeHeader s.accCount t.hdr = .legal .write
  acc : ∃ v : Word, t.acc = s.acc.set (aselField t.hdr).toNat v

/-- The accumulator that a decoded command names is the header's. -/
theorem accOf_operands {op : Opcode} {hdr : Word} {prior data : List Byte} {a : BitVec 4}
    (h : (operands op hdr prior data).accOf = some a) : aselField hdr = a := by
  cases op with
  | reset | write | sum32 | sum => exact Option.some.inj h
  | checksum | update | size | bsize | tblrd => cases h

/-- A command that changes the accumulators is a `RESET` or `WRITE` and ends its packet; `u` is the state it runs in. -/
theorem EndsAccPacket.of_exec {s u t : State} {op : Opcode} {prior data : List Byte} (hp : s.pstate ≠ .idle)
    (hidle : u.pstate = .idle) (hf : u.faulted = s.faulted) (hacc : u.acc = s.acc)
    (hd : decodeHeader u.accCount u.hdr = .legal op) (hx : exec (operands op u.hdr prior data) u = .next t)
    (hne : t.acc ≠ s.acc) : EndsAccPacket s t := by
  have hn : u.accCount = s.accCount := congrArg List.length hacc
  obtain ⟨h, bytes, acc, w, -, rfl, hsame | ⟨a, v, ha, hset, hop⟩⟩ := exec_next (accOk_operands hd) hx
  · exact absurd (hsame.trans hacc) hne
  · rw [opcode_operands] at hop
    rw [hn] at hd
    refine ⟨hp, hidle, hf, ?_, v, ?_⟩
    · rcases hop with rfl | rfl
      · exact .inl hd
      · exact .inr hd
    · rw [accOf_operands ha, ← hacc]; exact hset

/-- The transitions of acceptance that change the accumulators are those that execute a `RESET` or `WRITE`. -/
theorem AcceptCase.acc {s t : State} (hc : AcceptCase s t) (hne : t.acc ≠ s.acc) : EndsAccPacket s t := by
  cases hc with
  | atHeader h b0 b1 b2 b3 rest op hp ho hg hb hd he hx =>
    exact .of_exec (u := { headerState h rest b0 b1 b2 b3 s with pstate := .idle }) (by simp [hp]) rfl rfl rfl hd hx hne
  | atPayload op hp hr hd hx =>
    exact .of_exec (u := { s with pstate := .idle }) (by rcases hp with hp | hp <;> simp [hp]) rfl rfl rfl hd hx hne
  | hold ht | chosen _ _ _ ht | hdrByte _ _ _ _ _ _ _ ht | illegal _ _ _ _ _ _ _ _ _ _ _ _ ht
  | toPrior _ _ _ _ _ _ _ _ _ _ _ ht | toData _ _ _ _ _ _ _ _ _ _ _ ht | toPrefix _ _ _ _ _ _ _ _ _ _ _ ht
  | priorByte _ _ _ _ _ _ _ ht | priorDone _ _ _ _ _ _ _ ht | payloadByte _ _ _ _ _ _ _ ht
  | illegalPayload _ _ _ _ _ _ ht => exact absurd (ht ▸ rfl) hne

/-- The generator leaves the accumulators alone. -/
theorem GenFrame.acc {s t : State} (hf : GenFrame s t) : t.acc = s.acc := by
  unfold GenFrame at hf
  rw [hf]

/-- Settles O43: neither a frozen CORE nor the generator changes an accumulator, and acceptance does so only by
executing a `RESET` or `WRITE`. -/
theorem accumulatorsChangeOnlyAtPacketEnd : Obligations.AccumulatorsChangeOnlyAtPacketEnd := by
  intro s t hx hne
  rcases step_cases hx with ⟨-, rfl⟩ | ⟨-, -, rfl⟩ | ⟨hf, hr, hc⟩
  · exact absurd rfl hne
  · exact absurd (genStep_frame s).acc hne
  · have he := hc.acc hne
    exact ⟨hf, hr, he.idle, he.inPacket, he.faulted.trans hf, he.header, he.acc⟩

end Sys2Proof.Machine
end

section
/-! Proofs about whole packets (30_encoding.md R74) and about the packets of two hosts (20_memory.md R54). -/

namespace Sys2Proof.Machine

/-! ### What a packet's header says about its command -/

/-- `PRIOR` matters only to `UPDATE`, and the payload only to a command that announces one. -/
theorem operands_congr {op : Opcode} {hdr : Word} {prior prior' data data' : List Byte}
    (hp : op = .update → prior = prior') (hd : op.immUse = .length → data = data') :
    operands op hdr prior data = operands op hdr prior' data' := by
  cases op with
  | update => rw [hp rfl, hd rfl]
  | checksum | write | sum => rw [hd rfl]; rfl
  | reset | sum32 | size | bsize | tblrd => rfl

/-- A header and the bytes it asks for give back the command. -/
theorem operands_eq {i : Instr} {prior data : List Byte} (hp : i.opcode = .update → prior = i.priorBytes)
    (hd : i.opcode.immUse = .length → data = i.payload) : operands i.opcode i.header prior data = i :=
  (operands_congr hp hd).trans (operands_header i)

/-- `IMM24` of a header that announces a payload is the length of the payload (30_encoding.md R64). -/
theorem immField_eq_payload_length {n : Nat} {i : Instr} (hw : i.wf n = true) (hl : i.opcode.immUse = .length) :
    immField i.header = BitVec.ofNat 24 i.payload.length := by
  have hlen := payloadLen_header hw
  simp only [payloadLen, hl] at hlen
  rw [← hlen, BitVec.ofNat_toNat, BitVec.setWidth_eq]

theorem payload_length_lt {n : Nat} {i : Instr} (hw : i.wf n = true) : i.payload.length < 2 ^ 24 := by
  simp only [Instr.wf, Instr.lenOk, Bool.and_eq_true, decide_eq_true_eq] at hw
  exact Nat.lt_of_le_of_lt hw.1 (by decide)

/-- `EXECUTE` runs the command whose packet has arrived whole (30_encoding.md R74). -/
theorem execute_command {s : State} {i : Instr} (hw : i.wf s.accCount = true) (hh : s.hdr = i.header)
    (hp : i.opcode = .update → s.priorBuf = i.priorBytes) (hd : i.opcode.immUse = .length → s.payload = i.payload) :
    execute s = exec i { s with pstate := .idle } := by
  have hdec : decodeHeader s.accCount s.hdr = .legal i.opcode := by rw [hh, decodeHeader_header hw]
  rw [execute_legal hdec, hh, operands_eq hp hd]

/-! ### Runs of accepting steps -/

theorem runSteps_one (s : State) : runSteps 1 s = step s := by
  simp only [runSteps]
  cases step s <;> rfl

/-- A run one step longer ends as that step does, in a next state or not. -/
theorem runSteps_last {n : Nat} {s t : State} (h : runSteps n s = .next t) : runSteps (n + 1) s = step t :=
  (runSteps_add h).trans (runSteps_one t)

/-- Steps that each take one byte of host `h`, into a buffer that `F` places in the state and that has room for `room`
bytes, take a run of bytes. -/
theorem runSteps_bytes {F : List Byte → Streams → State} {h room : Nat}
    (hstep : ∀ (buf : List Byte) (m : Streams) (b : Byte) (rest : List Byte), buf.length < room →
      m.get h = b :: rest → step (F buf m) = .next (F (buf ++ [b]) (m.put h rest)))
    (bs buf rest : List Byte) (m : Streams) (hwf : m.wf = true) (hg : m.get h = bs ++ rest)
    (hl : buf.length + bs.length ≤ room) :
    runSteps bs.length (F buf m) = .next (F (buf ++ bs) (m.put h rest)) := by
  induction bs generalizing buf m with
  | nil =>
    obtain rfl : m.get h = rest := hg
    rw [Streams.put_get hwf, List.append_nil]
    rfl
  | cons b bs ih =>
    rw [List.length_cons] at hl
    have hg' : (m.put h (bs ++ rest)).get h = bs ++ rest := by rw [Streams.get_put hwf, if_pos rfl]
    have hl' : (buf ++ [b]).length + bs.length ≤ room := by
      rw [List.length_append, List.length_singleton]
      omega
    have hrun := ih (buf ++ [b]) _ (Streams.wf_put h _ hwf) hg' hl'
    rw [Streams.put_put hwf, List.append_assoc] at hrun
    exact (runSteps_next (hstep buf m b (bs ++ rest) (by omega) hg)).trans hrun

/-! ### The header -/

theorem step_hdr {s : State} (ha : s.Accepting) (hp : s.pstate = .hdr) : step s = acceptHdr s :=
  (step_accept ha.1 ha.2).trans (accept_hdr hp)

/-- `s` waiting for header bytes of host `h`, with `buf` in `HDR_BUF` and `m` in the command streams. -/
def inHdr (h : Nat) (s : State) (buf : List Byte) (m : Streams) : State :=
  { s with owner := some h, pstate := .hdr, choices := s.choices + 1, hdrBuf := buf, cmd := m }

/-- `s` once host `h` has been chosen and its header `hdr` has been taken, with `rest` after it in its stream. -/
def headerTaken (h : Nat) (hdr : Word) (rest : List Byte) (s : State) : State :=
  { inHdr h s (be32 hdr) (s.cmd.put h rest) with hdr := hdr }

theorem step_choose {s : State} {h : Nat} (ha : s.Accepting) (hp : s.pstate = .idle)
    (hc : chooseHost s.choices s.cmd.ready = some h) : step s = .next (inHdr h s [] s.cmd) := by
  rw [step_accept ha.1 ha.2, accept_idle hp]
  simp only [acceptIdle, hc]
  rfl

theorem step_inHdr_byte {s : State} {h : Nat} (ha : s.Accepting) (buf : List Byte) (m : Streams) (b : Byte)
    (rest : List Byte) (hl : buf.length < 3) (hg : m.get h = b :: rest) :
    step (inHdr h s buf m) = .next (inHdr h s (buf ++ [b]) (m.put h rest)) := by
  have hb : takeByte (inHdr h s buf m) = some (b, inHdr h s buf (m.put h rest)) := takeByte_some rfl hg
  rw [step_hdr (s := inHdr h s buf m) ha rfl, acceptHdr_other hb]
  · rfl
  · simp only [inHdr, List.length_append, List.length_singleton]
    omega

theorem step_inHdr_fourth {s : State} {h : Nat} {b0 b1 b2 b3 : Byte} {m : Streams} {rest : List Byte}
    (ha : s.Accepting) (hg : m.get h = b3 :: rest) :
    step (inHdr h s [b0, b1, b2] m) = headerArrived (be32inv b0 b1 b2 b3)
      { inHdr h s [b0, b1, b2, b3] (m.put h rest) with hdr := be32inv b0 b1 b2 b3 } := by
  have hb : takeByte (inHdr h s [b0, b1, b2] m) = some (b3, inHdr h s [b0, b1, b2] (m.put h rest)) :=
    takeByte_some rfl hg
  rw [step_hdr (s := inHdr h s [b0, b1, b2] m) ha rfl, acceptHdr_fourth hb rfl]
  rfl

/-- An idle CORE takes the header of the host it chooses in 5 steps, and decodes it in the last (30_encoding.md R74). -/
theorem runSteps_header {s : State} {h : Nat} {hdr : Word} {rest : List Byte} (ha : s.Accepting)
    (hp : s.pstate = .idle) (hwf : s.cmd.wf = true) (hc : chooseHost s.choices s.cmd.ready = some h)
    (hg : s.cmd.get h = be32 hdr ++ rest) : runSteps 5 s = headerArrived hdr (headerTaken h hdr rest s) := by
  obtain ⟨b0, b1, b2, b3, hb⟩ : ∃ b0 b1 b2 b3 : Byte, be32 hdr = [b0, b1, b2, b3] := ⟨_, _, _, _, be32_eq hdr⟩
  have hinv : be32inv b0 b1 b2 b3 = hdr := by rw [← beWord_four, ← hb, beWord_of_be32]
  rw [hb] at hg
  have hrun : runSteps 4 s = .next (inHdr h s [b0, b1, b2] (s.cmd.put h (b3 :: rest))) :=
    (runSteps_next (step_choose ha hp hc)).trans
      (runSteps_bytes (step_inHdr_byte ha) [b0, b1, b2] [] (b3 :: rest) s.cmd hwf hg (Nat.le_refl 3))
  have hg3 : (s.cmd.put h (b3 :: rest)).get h = b3 :: rest := by rw [Streams.get_put hwf, if_pos rfl]
  rw [runSteps_last hrun, step_inHdr_fourth ha hg3, Streams.put_put hwf, hinv, ← hb]
  rfl

/-! ### `PRIOR` -/

theorem step_prior {s : State} (ha : s.Accepting) (hp : s.pstate = .prior) : step s = .next (acceptPrior s) :=
  (step_accept ha.1 ha.2).trans (accept_prior hp)

/-- `s` waiting for `PRIOR` bytes, with `buf` in `PRIOR_BUF` and `m` in the command streams. -/
def inPrior (s : State) (buf : List Byte) (m : Streams) : State :=
  { s with pstate := .prior, priorBuf := buf, cmd := m }

theorem acceptPrior_byte {s t : State} {b : Byte} (hb : takeByte s = some (b, t))
    (hl : (t.priorBuf ++ [b]).length ≠ 4) : acceptPrior s = { t with priorBuf := t.priorBuf ++ [b] } := by
  simp only [acceptPrior, hb, if_neg hl]

theorem acceptPrior_fourth {s t : State} {b : Byte} (hb : takeByte s = some (b, t))
    (hl : (t.priorBuf ++ [b]).length = 4) : acceptPrior s =
      { t with priorBuf := t.priorBuf ++ [b], pstate := .data, remain := immField t.hdr, payload := [] } := by
  simp only [acceptPrior, hb, if_pos hl]

theorem step_inPrior_byte {s : State} {h : Nat} (ha : s.Accepting) (ho : s.owner = some h) (buf : List Byte)
    (m : Streams) (b : Byte) (rest : List Byte) (hl : buf.length < 3) (hg : m.get h = b :: rest) :
    step (inPrior s buf m) = .next (inPrior s (buf ++ [b]) (m.put h rest)) := by
  have hb : takeByte (inPrior s buf m) = some (b, inPrior s buf (m.put h rest)) := takeByte_some ho hg
  rw [step_prior (s := inPrior s buf m) ha rfl, acceptPrior_byte hb]
  · rfl
  · simp only [inPrior, List.length_append, List.length_singleton]
    omega

/-- `PRIOR` is taken in 4 steps, the last of which turns to the payload (30_encoding.md R74). -/
theorem runSteps_prior {s : State} {h : Nat} {v : Word} {rest : List Byte} (ha : s.Accepting)
    (ho : s.owner = some h) (hwf : s.cmd.wf = true) (hg : s.cmd.get h = be32 v ++ rest) :
    runSteps 4 (inPrior s [] s.cmd) = .next { s with
      pstate := .data, priorBuf := be32 v, remain := immField s.hdr, payload := [], cmd := s.cmd.put h rest } := by
  obtain ⟨b0, b1, b2, b3, hb⟩ : ∃ b0 b1 b2 b3 : Byte, be32 v = [b0, b1, b2, b3] := ⟨_, _, _, _, be32_eq v⟩
  rw [hb] at hg ⊢
  have hrun := runSteps_bytes (step_inPrior_byte ha ho) [b0, b1, b2] [] (b3 :: rest) s.cmd hwf hg (Nat.le_refl 3)
  have hg3 : (s.cmd.put h (b3 :: rest)).get h = b3 :: rest := by rw [Streams.get_put hwf, if_pos rfl]
  have htake : takeByte (inPrior s [b0, b1, b2] (s.cmd.put h (b3 :: rest))) =
      some (b3, inPrior s [b0, b1, b2] (s.cmd.put h rest)) := by
    rw [← Streams.put_put hwf h (b3 :: rest) rest]
    exact takeByte_some ho hg3
  rw [runSteps_last (n := 3) hrun, step_prior (s := inPrior s _ _) ha rfl, List.nil_append,
    acceptPrior_fourth htake rfl]
  rfl

/-! ### The payload -/

theorem step_payload {s : State} (ha : s.Accepting) (hp : s.pstate = .data ∨ s.pstate = .pfx) :
    step s = acceptPayload s :=
  (step_accept ha.1 ha.2).trans (accept_payload hp)

/-- `s` waiting for the rest of a payload of `n` bytes, with `buf` taken and `m` in the command streams. -/
def inPayload (n : Nat) (s : State) (buf : List Byte) (m : Streams) : State :=
  { s with payload := buf, remain := BitVec.ofNat 24 (n - buf.length), cmd := m }

theorem step_inPayload_byte {s : State} {h n : Nat} (ha : s.Accepting) (hp : s.pstate = .data ∨ s.pstate = .pfx)
    (ho : s.owner = some h) (hn : n < 2 ^ 24) (buf : List Byte) (m : Streams) (b : Byte) (rest : List Byte)
    (hl : buf.length < n) (hg : m.get h = b :: rest) :
    step (inPayload n s buf m) = .next (inPayload n s (buf ++ [b]) (m.put h rest)) := by
  have hb : takeByte (inPayload n s buf m) = some (b, inPayload n s buf (m.put h rest)) := takeByte_some ho hg
  have hne : BitVec.ofNat 24 (n - buf.length) ≠ 0#24 := by bv_omega
  have hdec : BitVec.ofNat 24 (n - buf.length) - 1#24 = BitVec.ofNat 24 (n - (buf ++ [b]).length) := by
    rw [List.length_append, List.length_singleton]
    bv_omega
  rw [step_payload (s := inPayload n s buf m) ha hp, acceptPayload_byte hne hb]
  simp only [inPayload, hdec]

/-- A CORE that waits for the payload of a legal command takes it and then runs the command (30_encoding.md R74). -/
theorem runSteps_payload {s : State} {h : Nat} {i : Instr} {rest : List Byte} (ha : s.Accepting)
    (hp : s.pstate = .data ∨ s.pstate = .pfx) (ho : s.owner = some h) (hwf : s.cmd.wf = true)
    (hw : i.wf s.accCount = true) (hl : i.opcode.immUse = .length) (hh : s.hdr = i.header)
    (hprior : i.opcode = .update → s.priorBuf = i.priorBytes) (hpay : s.payload = [])
    (hr : s.remain = immField i.header) (hg : s.cmd.get h = i.payload ++ rest) :
    runSteps (i.payload.length + 1) s =
      exec i { s with pstate := .idle, payload := i.payload, remain := 0#24, cmd := s.cmd.put h rest } := by
  rw [immField_eq_payload_length hw hl] at hr
  have hs : inPayload i.payload.length s [] s.cmd = s := by
    rw [inPayload, List.length_nil, Nat.sub_zero, ← hr, ← hpay]
  have hrun := runSteps_bytes (step_inPayload_byte ha hp ho (payload_length_lt hw)) i.payload [] rest s.cmd hwf hg
    (by simp)
  rw [hs, List.nil_append] at hrun
  have hzero : (inPayload i.payload.length s i.payload (s.cmd.put h rest)).remain = 0#24 := by
    simp only [inPayload, Nat.sub_self]
  rw [runSteps_last hrun, step_payload (s := inPayload _ s _ _) ha hp, acceptPayload_done hzero,
    execute_command (s := inPayload _ s i.payload _) hw hh hprior fun _ => rfl]
  simp only [inPayload, Nat.sub_self]

/-! ### A whole packet -/

theorem encode_eq (i : Instr) : encode i = be32 i.header ++ (i.priorBytes ++ i.payload) :=
  List.append_assoc _ _ _

theorem priorBytes_nil {i : Instr} (hu : i.opcode ≠ .update) : i.priorBytes = [] := by
  cases i with
  | update => exact absurd rfl hu
  | _ => rfl

theorem packetSteps_payload {i : Instr} (hl : i.opcode.immUse = .length) :
    packetSteps i = 5 + i.opcode.priorLen + (i.payload.length + 1) := by
  simp only [packetSteps, hl, encode_length]
  omega

/-- The state that waits in `p` for the payload of command `i`, the packet of host `h` being taken so far and `rest`
coming after it. -/
def payloadAwaited (p : PState) (h : Nat) (i : Instr) (rest : List Byte) (s : State) : State :=
  { acceptedState h i (i.payload ++ rest) s with pstate := p, payload := [], remain := immField i.header }

section
variable {s : State} {h : Nat} {i : Instr} {rest : List Byte}
variable (ha : s.Accepting) (hp : s.pstate = .idle) (hwf : s.cmd.wf = true)
variable (hc : chooseHost s.choices s.cmd.ready = some h) (hg : s.cmd.get h = encode i ++ rest)
variable (hw : i.wf s.accCount = true)
include ha hp hwf hc hg hw

/-- A packet that ends with its header: the header's last step runs the command. -/
theorem runSteps_packet_endsWithHeader (he : endsWithHeader i.opcode = true) :
    runSteps (packetSteps i) s = exec i (acceptedState h i rest s) := by
  rw [encode_eq, List.append_assoc] at hg
  have hrun := runSteps_header ha hp hwf hc hg
  rw [headerArrived_endsWithHeader (s := headerTaken h i.header _ s) (decodeHeader_header hw) he] at hrun
  cases i with
  | checksum | update | write | sum => cases he
  | reset | sum32 | size | bsize | tblrd => exact hrun.trans (execute_command hw rfl nofun nofun)

/-- `UPDATE`: the header's 5 steps and the 4 of `PRIOR`. -/
theorem runSteps_to_payload_update (hu : i.opcode = .update) :
    runSteps (5 + i.opcode.priorLen) s = .next (payloadAwaited .data h i rest s) := by
  rw [encode_eq, List.append_assoc] at hg
  have hrun := runSteps_header ha hp hwf hc hg
  rw [headerArrived_update (hu ▸ decodeHeader_header hw)] at hrun
  cases i with
  | update v data =>
    let t : State := headerTaken h (Instr.update v data).header (be32 v ++ data ++ rest) s
    have hgt : t.cmd.get h = be32 v ++ (data ++ rest) :=
      (Streams.get_put hwf h h _).trans ((if_pos rfl).trans (List.append_assoc _ _ _))
    have hprior := runSteps_prior (s := t) ha rfl (Streams.wf_put h _ hwf) hgt
    refine (runSteps_add hrun).trans (hprior.trans ?_)
    simp only [t, headerTaken, inHdr, Streams.put_put hwf]
    rfl
  | _ => cases hu

/-- The commands that announce a payload and have no `PRIOR`: the header's 5 steps. -/
theorem runSteps_to_payload_noPrior (hl : i.opcode.immUse = .length) (hu : i.opcode ≠ .update) :
    ∃ p : PState, (p = .data ∨ p = .pfx) ∧
      runSteps (5 + i.opcode.priorLen) s = .next (payloadAwaited p h i rest s) := by
  rw [encode_eq, List.append_assoc, priorBytes_nil hu, List.nil_append] at hg
  have hrun := runSteps_header ha hp hwf hc hg
  have hd := decodeHeader_header hw
  cases i with
  | checksum => exact ⟨.data, .inl rfl, hrun.trans (headerArrived_data (.inl hd))⟩
  | write => exact ⟨.data, .inl rfl, hrun.trans (headerArrived_data (.inr hd))⟩
  | sum => exact ⟨.pfx, .inr rfl, hrun.trans (headerArrived_sum hd)⟩
  | update => exact absurd rfl hu
  | reset | sum32 | size | bsize | tblrd => cases hl

/-- A packet with a payload: what comes before the payload, then the payload, then the step that runs the command. -/
theorem runSteps_packet_payload (hl : i.opcode.immUse = .length) :
    runSteps (packetSteps i) s = exec i (acceptedState h i rest s) := by
  obtain ⟨p, hpp, hrun⟩ : ∃ p : PState, (p = .data ∨ p = .pfx) ∧
      runSteps (5 + i.opcode.priorLen) s = .next (payloadAwaited p h i rest s) := by
    by_cases hu : i.opcode = .update
    · exact ⟨.data, .inl rfl, runSteps_to_payload_update ha hp hwf hc hg hw hu⟩
    · exact runSteps_to_payload_noPrior ha hp hwf hc hg hw hl hu
  have hgt : (payloadAwaited p h i rest s).cmd.get h = i.payload ++ rest :=
    (Streams.get_put hwf h h _).trans (if_pos rfl)
  have hprior (hu : i.opcode = .update) : (payloadAwaited p h i rest s).priorBuf = i.priorBytes := by
    simp only [payloadAwaited, acceptedState, hu]
  rw [packetSteps_payload hl, runSteps_add hrun,
    runSteps_payload (s := payloadAwaited p h i rest s) ha hpp rfl (Streams.wf_put h _ hwf) hw hl rfl hprior rfl rfl
      hgt]
  simp only [payloadAwaited, acceptedState, hl, Streams.put_put hwf]

/-- An idle CORE takes the whole packet of the host it chooses, and runs its command (30_encoding.md R74). -/
theorem runSteps_packet : runSteps (packetSteps i) s = exec i (acceptedState h i rest s) := by
  by_cases hl : i.opcode.immUse = .length
  · exact runSteps_packet_payload ha hp hwf hc hg hw hl
  · refine runSteps_packet_endsWithHeader ha hp hwf hc hg hw ?_
    revert hl
    cases i.opcode <;> decide

end

/-! ### Two packets -/

/-- An idle CORE that holds one packet of the host it chooses and one of another host takes the two one after the
other. -/
theorem runSteps_two_packets {s : State} {h k : Nat} {i j : Instr} (ha : s.Accepting) (hp : s.pstate = .idle)
    (hwf : s.cmd.wf = true) (hc : chooseHost s.choices s.cmd.ready = some h) (hg : s.cmd.get h = encode i)
    (hrest : s.cmd.put h [] = [(k, encode j)]) (hi : i.wf s.accCount = true) (hj : j.wf s.accCount = true) :
    ∃ t u : State, runSteps (packetSteps i + packetSteps j) s = .next t ∧
      exec i (acceptedState h i [] s) = .next u ∧ exec j (acceptedState k j [] u) = .next t := by
  let v : State := acceptedState h i [] s
  have hv : i.accOk v.accCount = true := accOk_of_wf hi
  obtain ⟨u, hu⟩ := exec_completes hv rfl
  have hrun := (runSteps_packet ha hp hwf hc (hg.trans (List.append_nil _).symm) hi).trans hu
  have hju : j.wf u.accCount = true := by rw [exec_accCount hv hu]; exact hj
  obtain ⟨t, ht⟩ := exec_completes (s := acceptedState k j [] u) (accOk_of_wf hju) rfl
  refine ⟨t, u, (runSteps_add hrun).trans (Eq.trans ?_ ht), hu, ht⟩
  obtain ⟨h', bytes, acc, w, -, rfl, -⟩ := exec_next hv hu
  have hcmd : v.cmd = [(k, encode j)] := hrest
  refine runSteps_packet ha rfl (Streams.wf_put h [] hwf) ?_ ?_ hju
  · show chooseHost v.choices v.cmd.ready = some k
    rw [hcmd]
    rfl
  · show v.cmd.get k = _
    rw [hcmd, List.append_nil]
    exact if_pos rfl

/-- Settles O40: the host chosen first is one of the two, and then only the other has a packet. -/
theorem twoHostsInEitherOrder : Obligations.TwoHostsInEitherOrder := by
  intro s hA hB i j ha hp hlt hcmd hi hj
  have hwf : s.cmd.wf = true := by
    rw [hcmd]
    simp only [Streams.wf, Streams.wfFrom, Bool.and_eq_true, decide_eq_true_eq]
    exact ⟨⟨Nat.zero_le hA, rfl⟩, ⟨hlt, rfl⟩, trivial⟩
  have hready : s.cmd.ready = [hA, hB] := by rw [hcmd]; rfl
  obtain ⟨h, hc⟩ := chooseHost_isSome s.choices (hs := s.cmd.ready) (by simp [hready])
  have hmem : h = hA ∨ h = hB := by simpa [hready] using chooseHost_mem hc
  rcases hmem with rfl | rfl
  · obtain ⟨t, u, hrun, hu, ht⟩ := runSteps_two_packets (k := hB) ha hp hwf hc (by simp [hcmd, Streams.get])
      (by simp [hcmd, Streams.put]) hi hj
    exact ⟨t, u, hrun, .inl ⟨hu, ht⟩⟩
  · obtain ⟨t, u, hrun, hu, ht⟩ := runSteps_two_packets (k := hA) ha hp hwf hc
      (by simp [hcmd, Streams.get, hlt.ne']) (by simp [hcmd, Streams.put, hlt.ne', hlt.not_gt]) hj hi
    exact ⟨t, u, Nat.add_comm _ _ ▸ hrun, .inr ⟨hu, ht⟩⟩

end Sys2Proof.Machine
end

section
/-! Proofs about packets: the decoder and the encoder are inverse (30_encoding.md R60 to R68, R72), the length of a packet
(R73) and the worked packets (R81). -/

namespace Sys2Proof

/-! ### The packet decoder by the outcome of its header -/

/-- The packet decoder on a legal header with the bytes it asks for. -/
theorem decode_legal {n : Nat} {hdr : Word} {op : Opcode} {prior data : List Byte} (rest : List Byte)
    (hd : decodeHeader n hdr = .legal op) (hp : prior.length = op.priorLen) (hl : data.length = payloadLen op hdr) :
    decode n (be32 hdr ++ (prior ++ (data ++ rest))) = .command (operands op hdr prior data) rest := by
  have hlen : ¬ (prior ++ (data ++ rest)).length < op.priorLen + payloadLen op hdr := by
    simp only [List.length_append]
    omega
  simp only [be32_eq, List.cons_append, List.nil_append, decode, be32inv_extract, hd, if_neg hlen,
    List.take_left' hp, List.drop_left' hp, List.take_left' hl, List.drop_left' hl]

theorem decode_illegal {n : Nat} {b0 b1 b2 b3 : Byte} {c : Cause} (rest : List Byte)
    (hd : decodeHeader n (be32inv b0 b1 b2 b3) = .illegal c) :
    decode n (b0 :: b1 :: b2 :: b3 :: rest) = .illegal c (be32inv b0 b1 b2 b3) rest := by
  simp only [decode, hd]

/-- Bytes that decode to a command are a legal header and the bytes it asks for, then the rest. -/
theorem decode_command {n : Nat} {bytes rest : List Byte} {i : Instr} (h : decode n bytes = .command i rest) :
    ∃ (hdr : Word) (op : Opcode) (prior data : List Byte), decodeHeader n hdr = .legal op ∧
      prior.length = op.priorLen ∧ data.length = payloadLen op hdr ∧
      bytes = be32 hdr ++ (prior ++ (data ++ rest)) ∧ i = operands op hdr prior data := by
  match bytes with
  | b0 :: b1 :: b2 :: b3 :: tail =>
    cases hd : decodeHeader n (be32inv b0 b1 b2 b3) with
    | illegal c => cases (decode_illegal tail hd).symm.trans h
    | legal op =>
      simp only [decode, hd] at h
      split at h
      · cases h
      · next hlen =>
        cases h
        refine ⟨_, op, _, _, hd, ?_, ?_, ?_, rfl⟩
        · rw [List.length_take]
          omega
        · rw [List.length_take, List.length_drop]
          omega
        · rw [List.take_append_drop, List.take_append_drop, be32_inv_bytes]
          rfl
  | [] | [_] | [_, _] | [_, _, _] => cases h

/-! ### Decoding and encoding are inverse -/

/-- Settles O10: the header of a legal command is legal and asks for the command's own bytes, and its operands are the
command's. -/
theorem decodeOfEncode : Obligations.DecodeOfEncode := by
  intro n i rest hw
  have h := decode_legal rest (decodeHeader_header hw) (priorBytes_length i) (payloadLen_header hw).symm
  rw [operands_header] at h
  simpa only [encode, List.append_assoc] using h

/-- Settles O11: the command read from a legal header and its bytes has that header, those `PRIOR` bytes and that payload,
so its packet is the bytes read. -/
theorem encodeOfDecode : Obligations.EncodeOfDecode := by
  intro n bytes i rest h
  obtain ⟨hdr, op, prior, data, hd, hp, hl, rfl, rfl⟩ := decode_command h
  refine ⟨?_, wf_operands hd hl⟩
  rw [encode, header_operands hd hl, priorBytes_operands hp, payload_operands hl]
  simp only [List.append_assoc]

/-! ### Packet lengths (30_encoding.md R73) -/

/-- A legal packet is its header, its `PRIOR` and as many bytes as its header announces. -/
theorem encode_length_of_header {n : Nat} {i : Instr} (hw : i.wf n = true) :
    (encode i).length = 4 + i.opcode.priorLen + payloadLen i.opcode i.header := by
  rw [encode_length, payloadLen_header hw]

/-- Settles O14: `PRIOR` and the payload have the lengths that the opcode and `IMM24` give. -/
theorem packetLengths : Obligations.PacketLengths := by
  refine ⟨fun n i hw => ?_, fun n b0 b1 b2 b3 rest c hd => decode_illegal rest hd⟩
  rw [encode_length_of_header hw]
  cases i.opcode <;> rfl

/-- Settles O15: each line is encoded and decoded by computation. -/
theorem workedPackets : Obligations.WorkedPackets := by
  unfold Obligations.WorkedPackets
  decide

end Sys2Proof
end

section
/-! Proofs about the header decoder: its match and mask table and the order of its checks (30_encoding.md R69 to R72). -/

namespace Sys2Proof

/-! ### The opcode map (30_encoding.md R67, R69) -/

theorem opcodeOf_eq_some_iff {c : BitVec 4} {op : Opcode} : opcodeOf c = some op ↔ op.code = c :=
  ⟨opcodeOf_some, fun h => h ▸ opcodeOf_code op⟩

/-- The reserved values of `OPC` are 0x0 and those from 0xA on. -/
theorem opcodeOf_eq_none_iff {c : BitVec 4} : opcodeOf c = none ↔ c = 0x0#4 ∨ 0xA#4 ≤ c := by
  revert c
  decide

/-- The commands for which `ASEL` names an accumulator, by their codes (30_encoding.md R63). -/
theorem usesAsel_iff_code {op : Opcode} : op.usesAsel = true ↔ op.code ∈ [0x3#4, 0x4#4, 0x5#4, 0x6#4] := by
  cases op <;> decide

/-! ### The match and mask table (30_encoding.md R72) -/

/-- Two headers are the same when their three fields are. -/
theorem header_ext_iff {v w : Word} :
    v = w ↔ opcField v = opcField w ∧ aselField v = aselField w ∧ immField v = immField w := by
  constructor
  · rintro rfl
    exact ⟨rfl, rfl, rfl⟩
  · rintro ⟨ho, ha, hi⟩
    rw [← header_of_fields v, ho, ha, hi, header_of_fields]

/-- A masked header has given bits when each masked field has. -/
theorem masked_header_iff {h m b : Word} :
    h &&& m = b ↔ opcField h &&& opcField m = opcField b ∧ aselField h &&& aselField m = aselField b ∧
      immField h &&& immField m = immField b := by
  simp only [header_ext_iff, opcField, aselField, immField, BitVec.extractLsb'_and]

/-- `TBLRD` masks all of `IMM24` but the index. -/
theorem masked_imm_index_iff {h : Word} : immField h &&& 0xFFFF00#24 = 0#24 ↔ immHighField h = 0#16 := by
  have hsplit : immField h &&& 0xFFFF00#24 = immHighField h ++ 0#8 := by
    have hmask : ∀ k (_ : k < 24), (0xFFFF00#24)[k] = decide (8 ≤ k) := by decide
    ext k hk
    simp [immField, immHighField]
    grind
  rw [hsplit]
  constructor
  · intro hz
    have hhigh : (immHighField h ++ 0#8).extractLsb' 8 16 = 0#16 := by rw [hz]; rfl
    rwa [BitVec.extractLsb'_append_eq_left] at hhigh
  · intro hz
    rw [hz]
    rfl

/-- The bits of `ASEL` that a row's mask selects: those of a reserved field (30_encoding.md R63). -/
def aselMask (op : Opcode) : BitVec 4 :=
  match op.usesAsel with
  | true => 0x0#4
  | false => 0xF#4

/-- The bits of `IMM24` that a row's mask selects: those that are reserved (30_encoding.md R64). -/
def immMask (op : Opcode) : BitVec 24 :=
  match op.immUse with
  | .length => 0x000000#24
  | .index => 0xFFFF00#24
  | .reserved => 0xFFFFFF#24

/-- A row's mask selects the opcode and the reserved fields, and its bits are the opcode's code and zeros. -/
theorem headerRow_fields : ∀ r ∈ headerRows,
    (opcField r.mask = 0xF#4 ∧ aselField r.mask = aselMask r.op ∧ immField r.mask = immMask r.op) ∧
      opcField r.bits = r.op.code ∧ aselField r.bits = 0#4 ∧ immField r.bits = 0#24 := by
  decide

/-- The fields reserved for an opcode are zero when the bits its row's mask selects are (30_encoding.md R70). -/
theorem reservedClear_iff {op : Opcode} {h : Word} :
    reservedClear op h = true ↔ aselField h &&& aselMask op = 0#4 ∧ immField h &&& immMask op = 0#24 := by
  have all4 (x : BitVec 4) : x &&& 0xF#4 = x := BitVec.and_allOnes
  have all24 (x : BitVec 24) : x &&& 0xFFFFFF#24 = x := BitVec.and_allOnes
  have hasel : (op.usesAsel || aselField h == 0#4) = true ↔ aselField h &&& aselMask op = 0#4 := by
    cases hu : op.usesAsel <;> simp [aselMask, hu, all4]
  rw [reservedClear, Bool.and_eq_true, hasel]
  refine and_congr_right fun _ => ?_
  cases hu : op.immUse <;> simp [immMask, hu, all24, masked_imm_index_iff]

theorem exists_headerRow (op : Opcode) : ∃ r ∈ headerRows, r.op = op := by
  cases op <;> decide

/-- A header matches a row when it has the row's opcode and the fields reserved for it are zero. -/
theorem headerRow_match_iff {r : HeaderRow} (hr : r ∈ headerRows) {h : Word} :
    h &&& r.mask = r.bits ↔ opcodeOf (opcField h) = some r.op ∧ reservedClear r.op h = true := by
  obtain ⟨⟨hom, ham, him⟩, hob, hab, hib⟩ := headerRow_fields r hr
  have hall : opcField h &&& 0xF#4 = opcField h := BitVec.and_allOnes
  rw [masked_header_iff, hom, ham, him, hob, hab, hib, hall, reservedClear_iff, opcodeOf_eq_some_iff, eq_comm]

/-- The `ASEL` check of R72's table is the one of the decoder (30_encoding.md R71). -/
theorem aselCheck_iff {n : Nat} {h : Word} {op : Opcode} (hop : opcodeOf (opcField h) = some op) :
    (op.usesAsel = true → (aselField h).toNat < n) ↔
      (opcField h = 0x3#4 ∨ opcField h = 0x4#4 ∨ opcField h = 0x5#4 ∨ opcField h = 0x6#4 →
        (aselField h).toNat < n) := by
  rw [usesAsel_iff_code, opcodeOf_some hop]
  simp only [List.mem_cons, List.not_mem_nil, or_false]

/-- Settles O12: a row matches exactly when the decoder's first two checks pass, and the third is the `ASEL` check. -/
theorem decoderIsTheMatchMaskTable : Obligations.DecoderIsTheMatchMaskTable := by
  intro n h op
  rw [decodeHeader_legal_iff]
  constructor
  · rintro ⟨hop, hres, hasel⟩
    obtain ⟨r, hr, rfl⟩ := exists_headerRow op
    exact ⟨r, hr, rfl, (headerRow_match_iff hr).mpr ⟨hop, hres⟩, (aselCheck_iff hop).mp hasel⟩
  · rintro ⟨r, hr, rfl, hm, hasel⟩
    obtain ⟨hop, hres⟩ := (headerRow_match_iff hr).mp hm
    exact ⟨hop, hres, (aselCheck_iff hop).mpr hasel⟩

/-! ### The order of the checks (30_encoding.md R69 to R72) -/

theorem decodeHeader_reservedOpcode {n : Nat} {h : Word} (hop : opcodeOf (opcField h) = none) :
    decodeHeader n h = .illegal .illegalOpcode := by
  simp only [decodeHeader, hop]

theorem decodeHeader_reservedField {n : Nat} {h : Word} {op : Opcode} (hop : opcodeOf (opcField h) = some op)
    (hres : reservedClear op h = false) : decodeHeader n h = .illegal .reservedNonzero := by
  simp only [decodeHeader, hop, if_pos hres]

theorem decodeHeader_badAsel {n : Nat} {h : Word} {op : Opcode} (hop : opcodeOf (opcField h) = some op)
    (hres : reservedClear op h = true) (hu : op.usesAsel = true) (hn : n ≤ (aselField h).toNat) :
    decodeHeader n h = .illegal .badAsel := by
  simp [decodeHeader, hop, hres, hu, hn]

/-- The reserved fields by opcode value: `ASEL` of 1, 2 and 7 to 9, `IMM24` of 3, 5, 7 and 8, and its upper 16 bits of
9 (30_encoding.md R63, R64, R70). -/
theorem reservedClear_eq_false_iff {op : Opcode} {h : Word} (hop : op.code = opcField h) :
    reservedClear op h = false ↔
      (opcField h ∈ [0x1#4, 0x2#4, 0x7#4, 0x8#4, 0x9#4] ∧ aselField h ≠ 0#4) ∨
      (opcField h ∈ [0x3#4, 0x5#4, 0x7#4, 0x8#4] ∧ immField h ≠ 0#24) ∨
      (opcField h = 0x9#4 ∧ immHighField h ≠ 0#16) := by
  rw [← hop]
  cases op <;> simp [Opcode.code, reservedClear, Opcode.usesAsel, Opcode.immUse] <;> tauto

/-- Settles O13: the opcode decides the first check; the other two are read off the fields of its command. -/
theorem decodeChecksInOrder : Obligations.DecodeChecksInOrder := by
  intro n h
  cases hop : opcodeOf (opcField h) with
  | none =>
    have hres := opcodeOf_eq_none_iff.mp hop
    exact ⟨fun _ => decodeHeader_reservedOpcode hop, fun hno => absurd hres hno, fun hno => absurd hres hno,
      fun hno => absurd hres hno⟩
  | some op =>
    have hcode := opcodeOf_some hop
    have hfield := reservedClear_eq_false_iff (h := h) hcode
    have hasel := usesAsel_iff_code (op := op)
    rw [hcode] at hasel
    refine ⟨fun hres => ?_, fun _ hf => decodeHeader_reservedField hop (hfield.mpr hf), fun _ hf hb => ?_,
      fun _ hf hb => ⟨op, hcode, ?_⟩⟩
    · rw [opcodeOf_eq_none_iff.mpr hres] at hop
      cases hop
    · obtain ⟨hu, hn⟩ := hb
      exact decodeHeader_badAsel hop (by simpa using fun hc => hf (hfield.mp hc)) (hasel.mpr hu) hn
    · refine decodeHeader_legal_iff.mpr ⟨hop, by simpa using fun hc => hf (hfield.mp hc), fun hu => ?_⟩
      exact Nat.lt_of_not_le fun hn => hb ⟨hasel.mp hu, hn⟩

end Sys2Proof
end

section
/-! Proofs about responses: the response table (30_encoding.md R77), `UPDATE 0` (R80), and the meanings that respond with
a fault or not at all (entries 12 and 15). -/

namespace Sys2Proof.Machine

/-! ### The response of a legal command (30_encoding.md R75 to R77) -/

/-- The status byte comes first (30_encoding.md R76). -/
theorem expectedResponse_eq_cons (i : Instr) (s : State) :
    ∃ bytes : List Byte, expectedResponse i s = 0x00#8 :: bytes := by
  cases i <;> exact ⟨_, rfl⟩

/-- Over the finished table the state's datapath computes `Update`. -/
theorem updateWith_tableOf {s : State} (ht : s.TableBuilt) (val : Word) (data : List Byte) :
    updateWith (tableOf s.table) val data = crcUpdate val data := by
  rw [show tableOf s.table = tableEntry from funext ht, crcUpdate]

/-- Over the finished table a command whose accumulator exists responds what the table of R77 says, and of the state only
`ACC` and `W` can have changed before that. -/
theorem exec_eq_respond_expected {s : State} {i : Instr} (ht : s.TableBuilt) (hw : i.accOk s.accCount = true) :
    ∃ (acc : List Word) (w : Word), exec i s = respond (expectedResponse i s) { s with acc := acc, w := w } := by
  cases i with
  | checksum data =>
    refine ⟨s.acc, Config.idleW s.choices, ?_⟩
    rw [expectedResponse, crcChecksum, ← updateWith_tableOf ht]
    rfl
  | update prior data =>
    refine ⟨s.acc, Config.idleW s.choices, ?_⟩
    rw [expectedResponse, ← updateWith_tableOf ht]
    rfl
  | tblrd idx =>
    refine ⟨s.acc, s.w, ?_⟩
    rw [expectedResponse, ← ht]
    rfl
  | reset a | write a data | sum32 a | sum a pre => exact ⟨_, _, withAcc_of_lt _ _ (lt_of_accOk hw rfl)⟩
  | size | bsize => exact ⟨s.acc, s.w, rfl⟩

/-- The owner's stream grows by the response of the table, and no other does. -/
theorem exec_resp {s t : State} {h : Nat} {i : Instr} (ho : s.owner = some h) (ht : s.TableBuilt)
    (hw : i.accOk s.accCount = true) (hx : exec i s = .next t) (k : Nat) :
    t.resp.get k = if k = h then s.resp.get h ++ expectedResponse i s else s.resp.get k := by
  obtain ⟨acc, w, he⟩ := exec_eq_respond_expected ht hw
  rw [he, respond_of_owner (s := { s with acc := acc, w := w }) _ ho] at hx
  obtain ⟨bytes, hb⟩ := expectedResponse_eq_cons i s
  cases hx
  rw [hb]
  exact Streams.get_append_cons s.resp h k 0x00#8 bytes

/-- Settles O25: the command completes, the owner's stream gets its row of the table, and each row has its length. -/
theorem responseTable : Obligations.ResponseTable := by
  intro s h i ho ht hw
  have hacc := accOk_of_wf hw
  refine ⟨?_, ?_⟩
  · obtain ⟨t, hx⟩ := exec_completes hacc ho
    have hresp := exec_resp ho ht hacc hx
    exact ⟨t, hx, (hresp h).trans (if_pos rfl), fun k hk => (hresp k).trans (if_neg hk)⟩
  · cases i with
    | sum a pre =>
      simp only [expectedResponse, List.length_cons, List.length_append, be32_length]
      omega
    | _ => rfl

/-! ### `UPDATE 0` and `CHECKSUM` (30_encoding.md R80) -/

/-- A command without an accumulator is legal when its payload fits. -/
theorem wf_of_accOf_none {i : Instr} (n : Nat) (ha : i.accOf = none) (hl : i.payload.length ≤ Config.lenMax) :
    i.wf n = true := by
  simp only [Instr.wf, Instr.lenOk, Instr.accOk, ha, hl, decide_true, Bool.and_self]

/-- Settles O28: the two meanings load the same value, and only one of the packets has `PRIOR`. -/
theorem updateZeroIsChecksum : Obligations.UpdateZeroIsChecksum := by
  refine ⟨fun _ _ => rfl, fun _ => rfl, fun data heq => ?_, fun n data hl => ?_⟩
  · have hlen := congrArg List.length heq
    simp only [encode_length, Instr.opcode, Opcode.priorLen, Instr.payload] at hlen
    omega
  · exact ⟨wf_of_accOf_none n rfl hl, wf_of_accOf_none n rfl hl⟩

/-! ### A missing accumulator and a missing owner (entries 15 and 12) -/

/-- A command whose accumulator does not exist takes the fault of its header, with or without an owner. -/
theorem exec_of_missing_acc {s : State} {i : Instr} {a : BitVec 4} (ha : i.accOf = some a)
    (hn : s.accCount ≤ a.toNat) : exec i s = raiseFault .badAsel i.header s := by
  cases i with
  | reset b | write b data | sum32 b | sum b pre =>
    cases ha
    exact withAcc_of_ge _ _ hn
  | checksum | update | size | bsize | tblrd => cases ha

/-- Settles O29: the fault is the one `exec_of_missing_acc` raises. -/
theorem missingAccumulatorFaults : Obligations.MissingAccumulatorFaults := by
  intro s h a i ho ha hn
  rw [exec_of_missing_acc ha hn, raiseFault_of_owner _ _ ho]
  rfl

theorem accOk_eq_false {n : Nat} {i : Instr} (h : i.accOk n = false) :
    ∃ a : BitVec 4, i.accOf = some a ∧ n ≤ a.toNat := by
  cases ha : i.accOf with
  | none => simp [Instr.accOk, ha] at h
  | some a => exact ⟨a, rfl, by simpa [Instr.accOk, ha] using h⟩

/-- Settles O30: whether its accumulator exists or not, a meaning ends in a response. -/
theorem noOwnerStops : Obligations.NoOwnerStops := by
  intro s i ho
  cases hw : i.accOk s.accCount with
  | true =>
    obtain ⟨bytes, acc, w, hx, -⟩ := exec_of_accOk hw
    exact hx.trans (respond_of_no_owner (s := { s with acc := acc, w := w }) _ ho)
  | false =>
    obtain ⟨a, ha, hn⟩ := accOk_eq_false hw
    rw [exec_of_missing_acc ha hn]
    exact respond_of_no_owner _ ho

end Sys2Proof.Machine
end

section
/-! Proofs about the assembler's pseudo-instructions (30_encoding.md R79): the chunks of `LWRITE`, and what their `WRITE`s
leave. -/

namespace Sys2Proof.Machine

/-! ### The pieces of a byte sequence -/

theorem piecesOf_length (m k : Nat) (data : List Byte) : (piecesOf m k data).length = k := by
  induction k generalizing data with
  | zero => rfl
  | succ k ih => rw [piecesOf, List.length_cons, ih]

/-- Enough pieces make up the data. -/
theorem piecesOf_flatten {m k : Nat} {data : List Byte} (hk : data.length ≤ k * m) :
    (piecesOf m k data).flatten = data := by
  induction k generalizing data with
  | zero => exact (List.length_eq_zero_iff.mp (by omega)).symm
  | succ k ih =>
    rw [Nat.succ_mul] at hk
    have hdrop : (data.drop m).length ≤ k * m := by rw [List.length_drop]; omega
    rw [piecesOf, List.flatten_cons, ih hdrop, List.take_append_drop]

theorem length_le_of_mem_piecesOf {m k : Nat} {data c : List Byte} (hc : c ∈ piecesOf m k data) : c.length ≤ m := by
  induction k generalizing data with
  | zero => cases hc
  | succ k ih =>
    obtain rfl | hc := List.mem_cons.mp hc
    · exact List.length_take_le m data
    · exact ih hc

/-- Where the data goes on after `k` pieces, each of these is of full length. -/
theorem length_of_mem_dropLast_piecesOf {m k : Nat} {data c : List Byte} (hk : k * m ≤ data.length)
    (hc : c ∈ (piecesOf m (k + 1) data).dropLast) : c.length = m := by
  induction k generalizing data with
  | zero => cases hc
  | succ k ih =>
    rw [Nat.succ_mul] at hk
    obtain rfl | hc := List.mem_cons.mp hc
    · rw [List.length_take]
      omega
    · exact ih (by rw [List.length_drop]; omega) hc

/-! ### The chunks of `LWRITE` (30_encoding.md R79) -/

/-- There are enough chunks for the data. -/
theorem length_le_chunkCount {m : Nat} (hm : 0 < m) (data : List Byte) : data.length ≤ chunkCount m data * m := by
  have hdiv := Nat.lt_div_mul_add (a := data.length + (m - 1)) hm
  have hmax := Nat.mul_le_mul_right m (Nat.le_max_right 1 ((data.length + (m - 1)) / m))
  unfold chunkCount
  omega

/-- There are no more chunks than the data needs, but for the one of an empty sequence. -/
theorem pred_chunkCount_le {m : Nat} (data : List Byte) : (chunkCount m data - 1) * m ≤ data.length := by
  have hdiv := Nat.div_mul_le_self (data.length + (m - 1)) m
  unfold chunkCount
  rcases Nat.le_total ((data.length + (m - 1)) / m) 1 with h | h
  · rw [Nat.max_eq_left h, Nat.sub_self, Nat.zero_mul]
    exact Nat.zero_le _
  · rw [Nat.max_eq_right h, Nat.sub_mul]
    omega

theorem chunksOf_flatten {m : Nat} (hm : 0 < m) (data : List Byte) : (chunksOf m data).flatten = data :=
  piecesOf_flatten (length_le_chunkCount hm data)

theorem chunksOf_length {m : Nat} (hm : 0 < m) (data : List Byte) :
    (chunksOf m data).length = max 1 ((data.length + m - 1) / m) := by
  rw [chunksOf, piecesOf_length, chunkCount, Nat.add_sub_assoc hm]

theorem length_of_mem_dropLast_chunksOf {m : Nat} {data c : List Byte} (hc : c ∈ (chunksOf m data).dropLast) :
    c.length = m := by
  have hpos : chunkCount m data - 1 + 1 = chunkCount m data := Nat.sub_add_cancel (Nat.le_max_left 1 _)
  rw [chunksOf, ← hpos] at hc
  exact length_of_mem_dropLast_piecesOf (pred_chunkCount_le data) hc

/-! ### A run of `WRITE`s -/

/-- Updating over one piece and then over another is updating over both (41_crc_update.md R123). -/
theorem crcUpdate_crcUpdate (v : Word) (s1 s2 : List Byte) : crcUpdate (crcUpdate v s1) s2 = crcUpdate v (s1 ++ s2) := by
  simp only [crcUpdate, updateWith, BitVec.not_not, feedWith_append]

theorem crcUpdate_nil (v : Word) : crcUpdate v [] = v := BitVec.not_not

theorem exec_tableBuilt {s t : State} {i : Instr} (hw : i.accOk s.accCount = true) (ht : s.TableBuilt)
    (hx : exec i s = .next t) : t.TableBuilt := by
  intro j
  rw [exec_table hw hx]
  exact ht j

/-- One `WRITE`, of an accumulator that exists, on a CORE with the finished table. -/
theorem exec_write {s : State} {h : Nat} {a : BitVec 4} (data : List Byte) (ho : s.owner = some h)
    (ht : s.TableBuilt) (ha : a.toNat < s.accCount) :
    ∃ t : State, exec (.write a data) s = .next t ∧ t.TableBuilt ∧ t.accCount = s.accCount ∧
      accRead a t = crcUpdate (accRead a s) data ∧
      t.resp.get h = s.resp.get h ++ 0x00#8 :: be32 (BitVec.ofNat 32 data.length) := by
  have hw : (Instr.write a data).accOk s.accCount = true := by simpa [Instr.accOk, Instr.accOf] using ha
  obtain ⟨t, hx⟩ := exec_completes hw ho
  refine ⟨t, hx, exec_tableBuilt hw ht hx, exec_accCount hw hx, ?_, ?_⟩
  · rw [accRead_congr (s := { s with acc := _ }) a (exec_write_acc ha hx), accRead_set a _ ha, if_pos rfl,
      updateWith_tableOf ht]
  · exact (exec_resp ho ht hw hx h).trans (if_pos rfl)

/-- The `WRITE`s of host `h` that append these chunks to accumulator `a`. -/
def writesOf (h : Nat) (a : BitVec 4) (chunks : List (List Byte)) : List (Nat × Instr) :=
  chunks.map fun c => (h, .write a c)

/-- The responses to the `WRITE`s of these chunks: status and count, one for each (30_encoding.md R77). -/
def writeResponses (chunks : List (List Byte)) : List Byte :=
  (chunks.map fun c => 0x00#8 :: be32 (BitVec.ofNat 32 c.length)).flatten

/-- `WRITE`s of chunks leave what one update over all their bytes does, and a response each. -/
theorem execAll_writes {s : State} (h : Nat) {a : BitVec 4} (chunks : List (List Byte)) (ht : s.TableBuilt)
    (ha : a.toNat < s.accCount) :
    ∃ t : State, execAll (writesOf h a chunks) s = .next t ∧
      accRead a t = crcUpdate (accRead a s) chunks.flatten ∧
      t.resp.get h = s.resp.get h ++ writeResponses chunks := by
  induction chunks generalizing s with
  | nil => exact ⟨s, rfl, (crcUpdate_nil _).symm, (List.append_nil _).symm⟩
  | cons c chunks ih =>
    obtain ⟨u, hx, htu, hnu, hacc, hresp⟩ := exec_write (s := { s with owner := some h }) c rfl ht ha
    obtain ⟨t, hrun, hacct, hrespt⟩ := ih htu (hnu ▸ ha)
    refine ⟨t, by simpa only [writesOf, List.map_cons, execAll, hx] using hrun, ?_, ?_⟩
    · rw [hacct, hacc, crcUpdate_crcUpdate, List.flatten_cons]
      rfl
    · rw [hrespt, hresp, List.append_assoc]
      rfl

/-- Settles O35: `NEW` and `LWRITE` expand as defined, the chunks are the pieces of the data, and a run of `WRITE`s is
one update over their concatenation. -/
theorem pseudoInstructions : Obligations.PseudoInstructions := by
  have hm : 0 < 2 ^ 24 - 1 := by decide
  refine ⟨fun _ => rfl, fun a data ha => ?_, fun data => ⟨chunksOf_flatten hm data, chunksOf_length hm data,
    fun c => length_of_mem_dropLast_chunksOf, fun c => length_le_of_mem_piecesOf, ?_⟩, fun s h a data ht ha => ?_⟩
  · simp only [assemble, asmAcc, if_pos ha, Option.map_some]
    rfl
  · rw [← List.length_flatten, chunksOf_flatten hm]
  · obtain ⟨t, hrun, hacc, hresp⟩ := execAll_writes h (chunksOf (2 ^ 24 - 1) data) ht ha
    rw [chunksOf_flatten hm] at hacc
    exact ⟨t, hrun, hacc, hresp⟩

end Sys2Proof.Machine
end

section
/-! Proofs about packet acceptance: each transition from each `PSTATE`, the step that runs a command, and a whole packet
(30_encoding.md R74). -/

namespace Sys2Proof.Machine

/-! ### `IDLE` -/

/-- With no byte from any host an idle CORE holds. -/
theorem step_idle_hold {s : State} (ha : s.Accepting) (hp : s.pstate = .idle) (hwf : s.cmd.wf = true)
    (hno : ∀ h : Nat, s.cmd.get h = []) : step s = .next s := by
  have hready : s.cmd.ready = [] :=
    List.eq_nil_iff_forall_not_mem.mpr fun h hmem => (Streams.mem_ready hwf h).mp hmem (hno h)
  rw [step_accept ha.1 ha.2, accept_idle hp]
  simp only [acceptIdle, hready, chooseHost]

/-- With a byte from some host an idle CORE chooses such a host. -/
theorem step_idle_choose {s : State} (ha : s.Accepting) (hp : s.pstate = .idle) (hwf : s.cmd.wf = true)
    (hbyte : ∃ h : Nat, s.cmd.get h ≠ []) :
    ∃ h : Nat, s.cmd.get h ≠ [] ∧
      step s = .next { s with owner := some h, pstate := .hdr, hdrBuf := [], choices := s.choices + 1 } := by
  obtain ⟨k, hk⟩ := hbyte
  have hne : s.cmd.ready ≠ [] := List.ne_nil_of_mem ((Streams.mem_ready hwf k).mpr hk)
  obtain ⟨h, hc⟩ := chooseHost_isSome s.choices hne
  exact ⟨h, (Streams.mem_ready hwf h).mp (chooseHost_mem hc), step_choose ha hp hc⟩

/-! ### Holding where the owner's next byte has not come -/

theorem step_hold {s : State} (ha : s.Accepting) (hb : takeByte s = none) (hp : s.pstate = .hdr ∨ s.pstate = .prior) :
    step s = .next s := by
  rcases hp with hp | hp
  · rw [step_hdr ha hp, acceptHdr_hold hb]
  · rw [step_prior ha hp]
    simp only [acceptPrior, hb]

theorem step_payload_hold {s : State} (ha : s.Accepting) (hb : takeByte s = none)
    (hp : s.pstate = .data ∨ s.pstate = .pfx) (hr : s.remain ≠ 0#24) : step s = .next s := by
  rw [step_payload ha hp, acceptPayload_hold hr hb]

/-! ### Taking a byte -/

section
variable {s : State} {h : Nat} {b : Byte} {rest : List Byte}
variable (ha : s.Accepting) (ho : s.owner = some h) (hg : s.cmd.get h = b :: rest)
include ha ho hg

theorem step_hdr_byte (hp : s.pstate = .hdr) (hl : s.hdrBuf.length < 3) :
    step s = .next { s with hdrBuf := s.hdrBuf ++ [b], cmd := s.cmd.put h rest } := by
  have hlen : (s.hdrBuf ++ [b]).length ≠ 4 := by
    rw [List.length_append, List.length_singleton]
    omega
  rw [step_hdr ha hp, acceptHdr_other (takeByte_some ho hg) hlen]

theorem step_prior_byte (hp : s.pstate = .prior) (hl : s.priorBuf.length < 3) :
    step s = .next { s with priorBuf := s.priorBuf ++ [b], cmd := s.cmd.put h rest } := by
  have hlen : (s.priorBuf ++ [b]).length ≠ 4 := by
    rw [List.length_append, List.length_singleton]
    omega
  rw [step_prior ha hp, acceptPrior_byte (takeByte_some ho hg) hlen]

theorem step_prior_fourth (hp : s.pstate = .prior) (hl : s.priorBuf.length = 3) :
    step s = .next { s with
      priorBuf := s.priorBuf ++ [b], cmd := s.cmd.put h rest, pstate := .data,
      remain := immField s.hdr, payload := [] } := by
  have hlen : (s.priorBuf ++ [b]).length = 4 := by rw [List.length_append, hl, List.length_singleton]
  rw [step_prior ha hp, acceptPrior_fourth (takeByte_some ho hg) hlen]

theorem step_payload_byte (hp : s.pstate = .data ∨ s.pstate = .pfx) (hr : s.remain ≠ 0#24) :
    step s = .next { s with
      payload := s.payload ++ [b], cmd := s.cmd.put h rest, remain := s.remain - 1#24 } := by
  rw [step_payload ha hp, acceptPayload_byte hr (takeByte_some ho hg)]

/-- The fourth header byte completes the header, which is decoded in the same step. -/
theorem step_hdr_fourth {b0 b1 b2 : Byte} (hp : s.pstate = .hdr) (hb : s.hdrBuf = [b0, b1, b2]) :
    step s = headerArrived (be32inv b0 b1 b2 b) (headerState h rest b0 b1 b2 b s) := by
  have hbuf : s.hdrBuf ++ [b] = [b0, b1, b2, b] := by rw [hb]; rfl
  rw [step_hdr ha hp, acceptHdr_fourth (takeByte_some ho hg) hbuf]
  rfl

end

/-! ### The end of a packet -/

theorem endsWithHeader_of_mem {op : Opcode}
    (h : op ∈ [Opcode.reset, Opcode.sum32, Opcode.size, Opcode.bsize, Opcode.tblrd]) : endsWithHeader op = true := by
  revert op
  decide

/-- Of a legal header that ends its packet, the command runs at once. -/
theorem headerArrived_exec {s : State} {op : Opcode} (hd : decodeHeader s.accCount s.hdr = .legal op)
    (he : endsWithHeader op = true) :
    headerArrived s.hdr s = exec (operands op s.hdr s.priorBuf s.payload) { s with pstate := .idle } := by
  rw [headerArrived_endsWithHeader hd he, execute_legal hd]

theorem step_payload_done {s : State} (ha : s.Accepting) (hp : s.pstate = .data ∨ s.pstate = .pfx)
    (hr : s.remain = 0#24) : step s = execute s := by
  rw [step_payload ha hp, acceptPayload_done hr]

/-- Settles O37: each clause is the lemma about its `PSTATE`; those about a whole header are the equations of
`headerArrived`. -/
theorem acceptanceTransitions : Obligations.AcceptanceTransitions := by
  intro s ha
  refine ⟨fun hp hno hwf => step_idle_hold ha hp hwf hno, fun hp hb hwf => step_idle_choose ha hp hwf hb,
    fun h ho hg hp => step_hold ha (takeByte_none ho hg) hp,
    fun h ho hg hp hr => step_payload_hold ha (takeByte_none ho hg) hp hr, fun h b rest ho hg => ?_,
    fun op hp hr hd => (step_payload_done ha hp hr).trans (execute_legal hd)⟩
  refine ⟨step_hdr_byte ha ho hg, step_prior_byte ha ho hg, step_prior_fourth ha ho hg, step_payload_byte ha ho hg,
    fun b0 b1 b2 hp hb => ?_⟩
  have hstep := step_hdr_fourth ha ho hg hp hb
  exact ⟨fun c hd => hstep.trans (headerArrived_illegal hd), fun hd => hstep.trans (headerArrived_update hd),
    fun hd => hstep.trans (headerArrived_data hd), fun hd => hstep.trans (headerArrived_sum hd),
    fun op hop hd => hstep.trans
      (headerArrived_exec (s := headerState h rest b0 b1 b2 b s) hd (endsWithHeader_of_mem hop))⟩

/-! ### Running the decoded command (30_encoding.md R68, R74) -/

theorem be32inv_of_be32 {v : Word} {b0 b1 b2 b3 : Byte} (h : be32 v = [b0, b1, b2, b3]) : be32inv b0 b1 b2 b3 = v := by
  rw [← beWord_four, ← h, beWord_of_be32]

/-- A packet of 4 bytes is its header. -/
theorem be32_header_of_encode {i : Instr} {b0 b1 b2 b3 : Byte} (h : encode i = [b0, b1, b2, b3]) :
    be32 i.header = [b0, b1, b2, b3] := by
  have htake := (Laws.PacketLayout.of i).1
  rw [h] at htake
  exact htake.symm

theorem not_update_of_endsWithHeader {op : Opcode} (h : endsWithHeader op = true) : op ≠ .update := by
  rintro rfl
  cases h

theorem no_payload_of_endsWithHeader {op : Opcode} (h : endsWithHeader op = true) : op.immUse ≠ .length := by
  cases op with
  | checksum | update | write | sum => cases h
  | reset | sum32 | size | bsize | tblrd => decide

/-- Settles O36: with nothing remaining the step executes, and so does the one that takes the last byte of a packet that
ends with its header. -/
theorem stepRunsTheDecodedCommand : Obligations.StepRunsTheDecodedCommand := by
  refine ⟨fun s i ha hw _ hp hr hh hpay hprior => ?_, fun s h b0 b1 b2 b3 rest i ha hw hop hp ho hb hg he => ?_⟩
  · exact (step_payload_done ha hp hr).trans (execute_command hw hh hprior fun _ => hpay)
  · have hends := endsWithHeader_of_mem hop
    have hhdr := be32inv_of_be32 (be32_header_of_encode he)
    let t : State := headerState h rest b0 b1 b2 b3 s
    have hstep : step s = headerArrived i.header t := hhdr ▸ step_hdr_fourth ha ho hg hp hb
    have hrun : execute t = exec i { t with pstate := .idle } :=
      execute_command hw hhdr (fun hu => absurd hu (not_update_of_endsWithHeader hends))
        fun hl => absurd hl (no_payload_of_endsWithHeader hends)
    rw [hstep, headerArrived_endsWithHeader (s := t) (decodeHeader_header hw) hends, hrun]
    simp only [t, headerState, hhdr]

/-- Settles O38: by `runSteps_packet`, which takes the header, then `PRIOR` and the payload where the header asks for them,
and executes. -/
theorem wholePacketRunsItsCommand : Obligations.WholePacketRunsItsCommand :=
  fun _ _ _ _ ha hp hwf hc hg hw => runSteps_packet ha hp hwf hc hg hw

end Sys2Proof.Machine
end

section
/-! Proofs about the table generator (40_table_generator.md): the entry as a function (R100), its laws (R104), the finished
table (R106), `TBLRD` (R105), and that the table is written once (R102, R103). -/

namespace Sys2Proof.Machine

/-! ### The entry as a function (40_table_generator.md R100) -/

theorem bitStep_eq (w : Word) :
    bitStep w = if w.getLsbD 31 = true then (w <<< 1) ^^^ 0x04C11DB7#32 else w <<< 1 := rfl

theorem tableEntry_zero : tableEntry 0#8 = 0#32 := by decide

theorem tableEntry_one : tableEntry 1#8 = Config.poly := by decide

theorem tableEntry_128 : tableEntry 0x80#8 = 0x690CE0EE#32 := by decide

/-- Settles O1: the entry unfolds to its 8 bit steps, and the corner cases are evaluated. -/
theorem tableEntryIsEightBitSteps : Obligations.TableEntryIsEightBitSteps :=
  ⟨fun _ => rfl, bitStep_eq, tableEntry_zero, tableEntry_one, by decide, tableEntry_128⟩

/-! ### The laws of the table (40_table_generator.md R104) -/

theorem tableEntry_xor (i j : Byte) : tableEntry (i ^^^ j) = tableEntry i ^^^ tableEntry j := by
  rw [tableEntry, seed_xor, bitSteps_xor]
  rfl

/-- The bytes of four indices in a row from a multiple of 4 on cancel out. -/
theorem xor_four_indices (k : Nat) :
    BitVec.ofNat 8 (4 * k) ^^^ BitVec.ofNat 8 (4 * k + 1) ^^^ BitVec.ofNat 8 (4 * k + 2) ^^^ BitVec.ofNat 8 (4 * k + 3) =
      0#8 := by
  have hbyte : ∀ b : Byte, 4#8 * b ^^^ (4#8 * b + 1#8) ^^^ (4#8 * b + 2#8) ^^^ (4#8 * b + 3#8) = 0#8 := by decide
  simpa [BitVec.ofNat_add, BitVec.ofNat_mul] using hbyte (BitVec.ofNat 8 k)

/-- So do their entries, by linearity. -/
theorem xor_four_entries (k : Nat) :
    tableEntry (BitVec.ofNat 8 (4 * k)) ^^^ tableEntry (BitVec.ofNat 8 (4 * k + 1)) ^^^
      tableEntry (BitVec.ofNat 8 (4 * k + 2)) ^^^ tableEntry (BitVec.ofNat 8 (4 * k + 3)) = 0#32 := by
  simp only [← tableEntry_xor, xor_four_indices, tableEntry_zero]

theorem foldl_xor_entriesFrom (k n : Nat) (w : Word) :
    (entriesFrom (4 * k) (4 * n)).foldl (fun x e => x ^^^ e.2) w = w := by
  induction n generalizing k w with
  | zero => rfl
  | succ n ih =>
    have hfour := xor_four_entries k
    simp only [BitVec.xor_assoc] at hfour
    calc (entriesFrom (4 * k) (4 * (n + 1))).foldl (fun x e => x ^^^ e.2) w
      _ = (entriesFrom (4 * (k + 1)) (4 * n)).foldl (fun x e => x ^^^ e.2)
            (w ^^^ tableEntry (BitVec.ofNat 8 (4 * k)) ^^^ tableEntry (BitVec.ofNat 8 (4 * k + 1)) ^^^
              tableEntry (BitVec.ofNat 8 (4 * k + 2)) ^^^ tableEntry (BitVec.ofNat 8 (4 * k + 3))) := rfl
      _ = w := by rw [ih]; simp only [BitVec.xor_assoc, hfour, BitVec.xor_zero]

/-- The top byte of an entry, which R104 has take each value once. -/
def topByte (i : Byte) : Byte := (tableEntry i).extractLsb' 24 8

theorem topByte_xor (i j : Byte) : topByte (i ^^^ j) = topByte i ^^^ topByte j := by
  rw [topByte, tableEntry_xor, BitVec.extractLsb'_xor]
  rfl

theorem eq_zero_of_topByte : ∀ i : Byte, topByte i = 0#8 → i = 0#8 := by decide

/-- A linear map with no nonzero root is injective. -/
theorem topByte_injective : Function.Injective topByte := by
  intro i j h
  rw [← BitVec.xor_eq_zero_iff] at h ⊢
  exact eq_zero_of_topByte _ ((topByte_xor i j).trans h)

/-- Settles O2: linearity gives the XOR of all entries from that of all indices, and the top bytes' injectivity from their
one root; on the finite type of bytes an injective map meets every value. -/
theorem tableLaws : Obligations.TableLaws := by
  refine ⟨tableEntry_zero, tableEntry_one, tableEntry_xor, foldl_xor_entriesFrom 0 64 0#32, fun b => ?_⟩
  obtain ⟨i, hi⟩ := Finite.surjective_of_injective topByte_injective b
  exact ⟨i, hi, fun j hj => topByte_injective (hj.trans hi.symm)⟩

/-! ### The finished table (40_table_generator.md R106) -/

theorem entriesFrom_append (i m n : Nat) : entriesFrom i (m + n) = entriesFrom i m ++ entriesFrom (i + m) n := by
  induction m generalizing i with
  | zero => simp [entriesFrom]
  | succ m ih =>
    rw [Nat.succ_add, entriesFrom, ih, entriesFrom, List.cons_append, Nat.add_right_comm, Nat.add_assoc]

theorem map_fst_entriesFrom (i n : Nat) : (entriesFrom i n).map Prod.fst = List.range' i n := by
  induction n generalizing i with
  | zero => rfl
  | succ n ih => rw [entriesFrom, List.map_cons, ih, List.range'_succ]

/-- The finished table by the four parts in which its words are listed. -/
theorem builtTable_eq_append :
    builtTable = entriesFrom 0 64 ++ entriesFrom 64 64 ++ entriesFrom 128 64 ++ entriesFrom 192 64 := by
  rw [← entriesFrom_append 0 64 64, ← entriesFrom_append 0 128 64, ← entriesFrom_append 0 192 64]
  rfl

/-- Settles O3: the words are evaluated part by part. -/
theorem finishedTableIsTheListedOne : Obligations.FinishedTableIsTheListedOne := by
  refine ⟨(map_fst_entriesFrom 0 256).trans List.range_eq_range'.symm, ?_⟩
  have h0 : (entriesFrom 0 64).map Prod.snd = listedTable0 := by decide
  have h1 : (entriesFrom 64 64).map Prod.snd = listedTable1 := by decide
  have h2 : (entriesFrom 128 64).map Prod.snd = listedTable2 := by decide
  have h3 : (entriesFrom 192 64).map Prod.snd = listedTable3 := by decide
  rw [builtTable_eq_append, List.map_append, List.map_append, List.map_append, h0, h1, h2, h3]

/-! ### `TBLRD` (40_table_generator.md R105) -/

/-- A header as the OR of its shifted fields (30_encoding.md R61). -/
theorem header_eq_or (i : Instr) :
    i.header = i.opcode.code.setWidth 32 <<< 28 ||| i.asel.setWidth 32 <<< 24 ||| i.imm.setWidth 32 := by
  ext k hk
  simp [Instr.header]
  grind

theorem encode_tblrd (idx : Byte) : encode (.tblrd idx) = be32 (0x90000000#32 ||| idx.setWidth 32) := by
  have himm : (Instr.tblrd idx).imm.setWidth 32 = idx.setWidth 32 := by
    rw [Instr.imm, BitVec.setWidth_setWidth (by decide)]
  have hhigh : Opcode.tblrd.code.setWidth 32 <<< 28 ||| (0#4).setWidth 32 <<< 24 = 0x90000000#32 := by decide
  have hheader : (Instr.tblrd idx).header = 0x90000000#32 ||| idx.setWidth 32 := by
    rw [header_eq_or, himm]
    exact congrArg (· ||| idx.setWidth 32) hhigh
  rw [← hheader]
  rfl

theorem exec_tblrd {s : State} {h : Nat} (idx : Byte) (ho : s.owner = some h) :
    exec (.tblrd idx) s = .next { s with resp := s.resp.append h (0x00#8 :: be32 (s.table.read idx.toNat)) } :=
  respond_of_owner _ ho

/-- Settles O24: the command only responds, and its header faults are those of `decodeChecksInOrder`. -/
theorem tblrdCommand : Obligations.TblrdCommand := by
  refine ⟨encode_tblrd, fun s h idx ho => ⟨exec_tblrd idx ho, fun ht => ht idx⟩, fun n hdr hop hf => ?_,
    tableEntry_zero, tableEntry_one, tableEntry_128⟩
  obtain ⟨-, hreserved, -⟩ := decodeChecksInOrder n hdr
  refine hreserved (by rw [hop]; decide) ?_
  rcases hf with hasel | himm
  · exact .inl ⟨by rw [hop]; decide, hasel⟩
  · exact .inr (.inr ⟨hop, himm⟩)

/-! ### The table is written once (40_table_generator.md R102, R103) -/

/-- A table short of entries is not the finished one. -/
theorem entriesFrom_ne_builtTable {n : Nat} (hn : n < Config.tableEntries) : entriesFrom 0 n ≠ builtTable := by
  intro h
  have hlen := congrArg List.length h
  rw [builtTable, entriesFrom_length, entriesFrom_length] at hlen
  omega

theorem State.GenOk.table_ne_builtTable {s : State} (h : s.GenOk) (hi : s.tableImpl = .generated) :
    s.table ≠ builtTable := by
  obtain ⟨-, -, h⟩ := h
  simp only [hi] at h
  obtain ⟨hidx, htab, -⟩ := h
  rw [htab]
  exact entriesFrom_ne_builtTable hidx

theorem GenFrame.tableImpl {s t : State} (hf : GenFrame s t) : t.tableImpl = s.tableImpl := by
  unfold GenFrame at hf
  rw [hf]

/-- The step of the generator that sets `TABLE_READY` is the one that completes the table. -/
theorem genStep_ready_iff {s : State} (h : s.GenOk) (hr : s.tableReady = false) (hi : s.tableImpl = .generated) :
    (genStep s).tableReady = true ↔ (genStep s).table = builtTable := by
  by_cases hl : s.genLeft ≤ 1
  · obtain ⟨hready, htab⟩ := genStep_last h hl
    exact iff_of_true hready htab
  · obtain ⟨hready, -, hgen⟩ := genStep_earlier h hr hl
    exact iff_of_false (by simp [hready]) (hgen.table_ne_builtTable ((genStep_frame s).tableImpl.trans hi))

/-- The table, `TABLE_READY` and the generator's registers are as they were. -/
structure SameTable (s t : State) : Prop where
  table : t.table = s.table
  tableReady : t.tableReady = s.tableReady
  genIdx : t.genIdx = s.genIdx
  genBit : t.genBit = s.genBit
  genW : t.genW = s.genW

theorem SameTable.refl (s : State) : SameTable s s := ⟨rfl, rfl, rfl, rfl, rfl⟩

theorem SameTable.trans {s t u : State} (h1 : SameTable s t) (h2 : SameTable t u) : SameTable s u where
  table := h2.table.trans h1.table
  tableReady := h2.tableReady.trans h1.tableReady
  genIdx := h2.genIdx.trans h1.genIdx
  genBit := h2.genBit.trans h1.genBit
  genW := h2.genW.trans h1.genW

/-- A command leaves the table and the generator alone. -/
theorem SameTable.trans_exec {s u t : State} {i : Instr} (hsu : SameTable s u) (hw : i.accOk u.accCount = true)
    (hx : exec i u = .next t) : SameTable s t := by
  obtain ⟨h, bytes, acc, w, -, rfl, -⟩ := exec_next hw hx
  exact hsu.trans ⟨rfl, rfl, rfl, rfl, rfl⟩

theorem AcceptCase.sameTable {s t : State} (hc : AcceptCase s t) : SameTable s t := by
  cases hc with
  | atHeader h b0 b1 b2 b3 rest op hp ho hg hb hd he hx =>
    exact .trans_exec (u := { headerState h rest b0 b1 b2 b3 s with pstate := .idle }) ⟨rfl, rfl, rfl, rfl, rfl⟩
      (accOk_operands hd) hx
  | atPayload op hp hr hd hx =>
    exact .trans_exec (u := { s with pstate := .idle }) ⟨rfl, rfl, rfl, rfl, rfl⟩ (accOk_operands hd) hx
  | hold ht | chosen _ _ _ ht | hdrByte _ _ _ _ _ _ _ ht | illegal _ _ _ _ _ _ _ _ _ _ _ _ ht
  | toPrior _ _ _ _ _ _ _ _ _ _ _ ht | toData _ _ _ _ _ _ _ _ _ _ _ ht | toPrefix _ _ _ _ _ _ _ _ _ _ _ ht
  | priorByte _ _ _ _ _ _ _ ht | priorDone _ _ _ _ _ _ _ ht | payloadByte _ _ _ _ _ _ _ ht
  | illegalPayload _ _ _ _ _ _ ht => subst ht; exact ⟨rfl, rfl, rfl, rfl, rfl⟩

/-- The generator does not run while `TABLE_READY = 1` (40_table_generator.md R103). -/
theorem step_sameTable {s t : State} (hr : s.tableReady = true) (hx : step s = .next t) : SameTable s t := by
  rcases step_cases hx with ⟨-, rfl⟩ | ⟨-, hno, -⟩ | ⟨-, -, hc⟩
  · exact .refl t
  · simp [hr] at hno
  · exact hc.sameTable

theorem applyEvent_sameTable {s t : State} {e : HostEvent} (hr : s.tableReady = true) (he : e ≠ .hardwareReset)
    (hx : applyEvent e s = .next t) : SameTable s t := by
  cases e with
  | tick => exact step_sameTable hr hx
  | send h bytes => cases hx; exact ⟨rfl, rfl, rfl, rfl, rfl⟩
  | take h n => cases hx; exact ⟨rfl, rfl, rfl, rfl, rfl⟩
  | hardwareReset => exact absurd rfl he

theorem runEvents_cons_next {e : HostEvent} {events : List HostEvent} {s t : State}
    (hx : runEvents (e :: events) s = .next t) :
    ∃ u : State, applyEvent e s = .next u ∧ runEvents events u = .next t := by
  rw [runEvents] at hx
  split at hx
  · next u hu => exact ⟨u, hu, hx⟩
  · cases hx
  · cases hx

/-- What each of the events keeps, a run over them keeps. -/
theorem runEvents_keeps {P : State → Prop} {events : List HostEvent} {s t : State}
    (hkeep : ∀ e ∈ events, ∀ u v : State, P u → applyEvent e u = .next v → P v) (hs : P s)
    (hx : runEvents events s = .next t) : P t := by
  induction events generalizing s with
  | nil => cases hx; exact hs
  | cons e events ih =>
    obtain ⟨u, hu, hrest⟩ := runEvents_cons_next hx
    exact ih (fun e' he' => hkeep e' (List.mem_cons_of_mem e he')) (hkeep e List.mem_cons_self s u hs hu) hrest

theorem runEvents_sameTable {s t : State} {events : List HostEvent} (hr : s.tableReady = true)
    (hno : HostEvent.hardwareReset ∉ events) (hx : runEvents events s = .next t) : SameTable s t := by
  refine runEvents_keeps (P := SameTable s) (fun e he u v hsu huv => ?_) (.refl s) hx
  exact hsu.trans (applyEvent_sameTable (hsu.tableReady.trans hr) (fun heq => hno (heq ▸ he)) huv)

/-- Settles O49: the generator's invariant has the table short of entries until its last step, which finishes it; from then
on no event but hardware reset reaches the generator. -/
theorem tableIsWrittenOnce : Obligations.TableIsWrittenOnce := by
  refine ⟨fun s t hinv hr hi hx => ?_, fun s hinv hr i => ?_, fun s t events hr hno hx => ?_⟩
  · obtain ⟨-, hf, -⟩ := hinv.gen_ok hr
    rw [step_generate hf hr] at hx
    cases hx
    exact genStep_ready_iff (hinv.gen_ok hr) hr hi
  · rw [hinv.table_built hr]
    exact tableOf_builtTable i
  · have hsame := runEvents_sameTable hr hno hx
    exact ⟨hsame.table, hsame.tableReady.trans hr, hsame.genIdx, hsame.genBit, hsame.genW⟩

end Sys2Proof.Machine
end

section
/-! Proofs about the datapath and its commands (41_crc_update.md): the step (R120), the chunking law (R123), the bit-serial
division (R124), the residue (R127), the identity cases (R128), and `CHECKSUM` and `UPDATE` (R125, R126). -/

namespace Sys2Proof.Machine

/-! ### The step and the bit-serial division (41_crc_update.md R120, R124) -/

theorem crcStep_eq (w : Word) (b : Byte) : crcStep w b = tableEntry (w.extractLsb' 24 8 ^^^ b) ^^^ (w <<< 8) := rfl

/-- While no set bit reaches the top, a bit step only shifts. -/
theorem bitSteps_of_clear {n : Nat} {w : Word} (hc : ∀ k < n, w.getMsbD k = false) : bitSteps n w = w <<< n := by
  induction n generalizing w with
  | zero => simp [bitSteps]
  | succ n ih =>
    have hstep : bitStep w = w <<< 1 := by
      rw [bitStep, hc 0 (by omega)]
      rfl
    have hnext : ∀ k < n, (w <<< 1).getMsbD k = false := fun k hk => by
      rw [BitVec.getMsbD_shiftLeft]
      exact hc (k + 1) (by omega)
    rw [bitSteps, hstep, ih hnext, ← BitVec.shiftLeft_add, Nat.add_comm]

/-- The lower three bytes of a word. -/
def lowBytes (w : Word) : Word := (w.setWidth 24).setWidth 32

theorem seed_xor_lowBytes (w : Word) : seed (w.extractLsb' 24 8) ^^^ lowBytes w = w := by
  ext k hk
  simp [seed, lowBytes]
  grind

theorem bitSteps_lowBytes (w : Word) : bitSteps 8 (lowBytes w) = w <<< 8 := by
  rw [bitSteps_of_clear fun k hk => by simp [lowBytes, BitVec.getMsbD]; omega]
  ext k hk
  simp [lowBytes]
  grind

/-- The step is 8 bit steps: the high byte goes through the table, the rest is shifted. -/
theorem crcStep_eq_bitDiv (w : Word) (b : Byte) : crcStep w b = bitDiv (w ^^^ seed b) := by
  have hsplit : seed (w.extractLsb' 24 8) ^^^ seed b ^^^ lowBytes w = w ^^^ seed b := by
    rw [BitVec.xor_assoc, BitVec.xor_comm (seed b), ← BitVec.xor_assoc, seed_xor_lowBytes]
  rw [crcStep_eq, tableEntry, seed_xor, ← bitSteps_lowBytes, ← bitSteps_xor, hsplit, bitDiv]

/-- Settles O6: each step is 8 bit steps, so both folds are over the same step. -/
theorem bitSerialEquivalence : Obligations.BitSerialEquivalence := by
  refine ⟨crcStep_eq_bitDiv, fun val s => ?_⟩
  have hfold : stepWith tableEntry = fun r b => bitDiv (r ^^^ seed b) := funext₂ crcStep_eq_bitDiv
  rw [crcUpdate, updateWith, feedWith, hfold]
  rfl

/-! ### The residue (41_crc_update.md R127) -/

theorem xor_xor_exchange (a b c d : Word) : a ^^^ b ^^^ (c ^^^ d) = a ^^^ c ^^^ (b ^^^ d) := by ac_rfl

/-- The step is linear in the value and the byte together. -/
theorem crcStep_xor (w v : Word) (a b : Byte) : crcStep (w ^^^ v) (a ^^^ b) = crcStep w a ^^^ crcStep v b := by
  rw [crcStep_eq_bitDiv, crcStep_eq_bitDiv, crcStep_eq_bitDiv, seed_xor, xor_xor_exchange, bitDiv, bitSteps_xor]
  rfl

theorem feedWith_be32 (w v : Word) : feedWith tableEntry w (be32 v) =
    crcStep (crcStep (crcStep (crcStep w (v.extractLsb' 24 8)) (v.extractLsb' 16 8)) (v.extractLsb' 8 8))
      (v.extractLsb' 0 8) := rfl

theorem feedWith_be32_xor (w x v y : Word) : feedWith tableEntry (w ^^^ x) (be32 (v ^^^ y)) =
    feedWith tableEntry w (be32 v) ^^^ feedWith tableEntry x (be32 y) := by
  simp only [feedWith_be32, BitVec.extractLsb'_xor, crcStep_xor]

/-- A step whose byte is the high byte of the value only shifts (41_crc_update.md R120). -/
theorem crcStep_highByte (w : Word) : crcStep w (w.extractLsb' 24 8) = w <<< 8 := by
  rw [crcStep_eq, BitVec.xor_self, tableEntry_zero, BitVec.zero_xor]

theorem crcStep_shiftLeft (w : Word) {n : Nat} (hn : n ≤ 24) :
    crcStep (w <<< n) (w.extractLsb' (24 - n) 8) = w <<< (n + 8) := by
  have htop : w.extractLsb' (24 - n) 8 = (w <<< n).extractLsb' 24 8 := by
    ext k hk
    have hbit : 24 - n + k = 24 + k - n := by omega
    simp [hbit]
    omega
  rw [htop, crcStep_highByte, BitVec.shiftLeft_add]

/-- The value's own bytes shift it out whole. -/
theorem feedWith_be32_self (w : Word) : feedWith tableEntry w (be32 w) = 0#32 := by
  have h8 : crcStep (w <<< 8) (w.extractLsb' 16 8) = w <<< 16 := crcStep_shiftLeft w (by decide)
  have h16 : crcStep (w <<< 16) (w.extractLsb' 8 8) = w <<< 24 := crcStep_shiftLeft w (by decide)
  have h24 : crcStep (w <<< 24) (w.extractLsb' 0 8) = w <<< 32 := crcStep_shiftLeft w (by decide)
  rw [feedWith_be32, crcStep_highByte, h8, h16, h24]
  exact BitVec.shiftLeft_eq_zero (Nat.le_refl 32)

/-- So the bytes of its complement leave what four bytes 0xFF make of 0. -/
theorem feedWith_be32_not (w : Word) : feedWith tableEntry w (be32 (~~~w)) = 0xC704DD7B#32 := by
  have hones : feedWith tableEntry 0#32 (be32 (BitVec.allOnes 32)) = 0xC704DD7B#32 := by decide +kernel
  have hxor := feedWith_be32_xor w 0#32 w (BitVec.allOnes 32)
  rwa [BitVec.xor_zero, BitVec.xor_allOnes, feedWith_be32_self, hones, BitVec.zero_xor] at hxor

/-- Settles O7: the CRC appended is the complement of the internal value it meets. -/
theorem residueLaw : Obligations.ResidueLaw := by
  intro s
  have hinternal : feedWith tableEntry (~~~0#32) (s ++ be32 (crcChecksum s)) = 0xC704DD7B#32 := by
    rw [feedWith_append]
    exact feedWith_be32_not _
  refine ⟨?_, hinternal⟩
  rw [crcChecksum, crcUpdate, updateWith, Config.initValue, hinternal]
  decide

/-! ### The identity cases (41_crc_update.md R128) -/

theorem crcStep_zero (b : Byte) : crcStep 0#32 b = tableEntry b := by
  rw [crcStep_eq, BitVec.zero_shiftLeft, BitVec.xor_zero, BitVec.extractLsb'_zero, BitVec.zero_xor]

theorem crcStep_zero_zero : crcStep 0#32 0#8 = 0#32 := (crcStep_zero 0#8).trans tableEntry_zero

/-- Zero bytes keep the internal value 0. -/
theorem feedWith_zero_of_zeros {s : List Byte} (hs : ∀ b ∈ s, b = 0#8) : feedWith tableEntry 0#32 s = 0#32 := by
  induction s with
  | nil => rfl
  | cons b s ih =>
    obtain ⟨rfl, hs'⟩ := List.forall_mem_cons.mp hs
    calc feedWith tableEntry 0#32 (0#8 :: s)
      _ = feedWith tableEntry (crcStep 0#32 0#8) s := rfl
      _ = 0#32 := by rw [crcStep_zero_zero, ih hs']

theorem crcUpdate_ones_of_zeros {s : List Byte} (hs : ∀ b ∈ s, b = 0#8) :
    crcUpdate 0xFFFFFFFF#32 s = 0xFFFFFFFF#32 := by
  have hload : ~~~0xFFFFFFFF#32 = 0#32 := by decide
  rw [crcUpdate, updateWith, hload, feedWith_zero_of_zeros hs]
  decide

/-- Settles O8: with no byte the two complements cancel, and `0xFFFFFFFF` is the internal value 0, which zero bytes
keep. -/
theorem identityCases : Obligations.IdentityCases :=
  ⟨crcUpdate_nil, crcUpdate_nil 0#32, fun _ => crcUpdate_ones_of_zeros⟩

/-! ### `CHECKSUM` and `UPDATE` (41_crc_update.md R125, R126) -/

/-- The header of a command whose `IMM24` is a length that fits in it. -/
theorem header_of_length {i : Instr} {n : Nat} (hi : i.imm = BitVec.ofNat 24 n) (hn : n ≤ 2 ^ 24 - 1) :
    i.header = i.opcode.code.setWidth 32 <<< 28 ||| i.asel.setWidth 32 <<< 24 ||| BitVec.ofNat 32 n := by
  have himm : i.imm.setWidth 32 = BitVec.ofNat 32 n := by
    rw [hi]
    apply BitVec.eq_of_toNat_eq
    simp only [BitVec.toNat_setWidth, BitVec.toNat_ofNat]
    omega
  rw [header_eq_or, himm]

theorem encode_checksum {data : List Byte} (hl : data.length ≤ 2 ^ 24 - 1) :
    encode (.checksum data) = be32 (0x10000000#32 ||| BitVec.ofNat 32 data.length) ++ data := by
  have hheader := header_of_length (i := .checksum data) rfl hl
  have hhigh : Opcode.checksum.code.setWidth 32 <<< 28 ||| (0#4).setWidth 32 <<< 24 = 0x10000000#32 := by decide
  rw [← hhigh, encode, hheader]
  rfl

theorem encode_update (prior : Word) {data : List Byte} (hl : data.length ≤ 2 ^ 24 - 1) :
    encode (.update prior data) = be32 (0x20000000#32 ||| BitVec.ofNat 32 data.length) ++ be32 prior ++ data := by
  have hheader := header_of_length (i := .update prior data) rfl hl
  have hhigh : Opcode.update.code.setWidth 32 <<< 28 ||| (0#4).setWidth 32 <<< 24 = 0x20000000#32 := by decide
  rw [← hhigh, encode, hheader]
  rfl

/-- Over the finished table `UPDATE` answers `Update`, and leaves all but `W` and the owner's responses as it was. -/
theorem exec_update {s : State} {h : Nat} (prior : Word) (data : List Byte) (ho : s.owner = some h)
    (ht : s.TableBuilt) : exec (.update prior data) s = .next { s with
      w := Config.idleW s.choices, resp := s.resp.append h (0x00#8 :: be32 (crcUpdate prior data)) } := by
  rw [← updateWith_tableOf ht]
  exact respond_of_owner (s := { s with w := _ }) _ ho

/-- `CHECKSUM` is `UPDATE` of the initial value (41_crc_update.md R122). -/
theorem exec_checksum_eq_update (data : List Byte) (s : State) :
    exec (.checksum data) s = exec (.update 0#32 data) s := rfl

/-- A command that names no accumulator has its `ASEL` reserved (30_encoding.md R70). -/
theorem decodeHeader_nonzero_asel (n : Nat) {hdr : Word} {op : Opcode} (hop : opcField hdr = op.code)
    (hu : op.usesAsel = false) (ha : aselField hdr ≠ 0#4) : decodeHeader n hdr = .illegal .reservedNonzero :=
  decodeHeader_reservedField (hop ▸ opcodeOf_code op) (by simp [reservedClear, hu, ha])

/-- Settles O16: the packet, the completion and the header fault are the lemmas above; the corner cases are evaluated. -/
theorem checksumCommand : Obligations.ChecksumCommand :=
  ⟨fun _ => encode_checksum,
    fun s _ data ho ht => ⟨_, (exec_checksum_eq_update data s).trans (exec_update 0#32 data ho ht)⟩,
    fun n _ hop => decodeHeader_nonzero_asel n (op := .checksum) hop rfl,
    crcUpdate_nil 0#32, by decide, by decide, by decide +kernel⟩

/-- Settles O17: as for `CHECKSUM`, with the identity cases of R128. -/
theorem updateCommand : Obligations.UpdateCommand :=
  ⟨fun prior _ => encode_update prior, fun _ _ prior data ho ht => ⟨_, exec_update prior data ho ht⟩,
    fun n _ hop => decodeHeader_nonzero_asel n (op := .update) hop rfl,
    crcUpdate_nil, fun _ => rfl, fun _ => crcUpdate_ones_of_zeros, by decide +kernel,
    by decide +kernel, by decide +kernel⟩

/-! ### The step's corner cases and the chunking law (41_crc_update.md R120, R123) -/

/-- Settles O4: the two general corner cases are the lemmas above, the fixed ones are evaluated. -/
theorem datapathStep : Obligations.DatapathStep :=
  ⟨crcStep_eq, crcStep_zero, crcStep_highByte, crcStep_zero_zero, by decide, by decide⟩

/-- Settles O5: the complement that ends one call undoes the one that starts the next. -/
theorem chunkingLaw : Obligations.ChunkingLaw := crcUpdate_crcUpdate

end Sys2Proof.Machine
end

section
/-! Proofs about the streaming accumulator commands (42_accumulator.md): what each responds and leaves, the independence
of the accumulators (R158), and what a `RESET` and appends leave (R156). -/

namespace Sys2Proof.Machine

/-! ### The effect of each command on the accumulator it names (42_accumulator.md R142, R146) -/

theorem accRead_of_reset {s t : State} {a : BitVec 4} (ha : a.toNat < s.accCount)
    (hx : exec (.reset a) s = .next t) : accRead a t = 0#32 := by
  rw [accRead_congr (s := { s with acc := _ }) a (exec_reset_acc ha hx), accRead_set a _ ha, if_pos rfl]
  rfl

theorem accRead_of_write {s t : State} {a : BitVec 4} {data : List Byte} (ht : s.TableBuilt)
    (ha : a.toNat < s.accCount) (hx : exec (.write a data) s = .next t) :
    accRead a t = crcUpdate (accRead a s) data := by
  rw [accRead_congr (s := { s with acc := _ }) a (exec_write_acc ha hx), accRead_set a _ ha, if_pos rfl,
    updateWith_tableOf ht]

/-- A command that does not name `a` leaves `ACC[a]` as it was (42_accumulator.md R158). -/
theorem accRead_of_accOf_ne {s t : State} {i : Instr} {a : BitVec 4} (hw : i.accOk s.accCount = true)
    (hi : i.accOf ≠ some a) (hx : exec i s = .next t) : accRead a t = accRead a s := by
  obtain ⟨h, bytes, acc, w, -, rfl, rfl | ⟨b, v, hb, rfl, -⟩⟩ := exec_next hw hx
  · rfl
  · have hab : a ≠ b := fun hab => hi (hab ▸ hb)
    exact (accRead_set a v (lt_of_accOk hw hb)).trans (if_neg hab)

/-! ### Independence of the accumulators (42_accumulator.md R158) -/

/-- Two COREs with the finished table and as many accumulators each, `a` among them, that hold the same value in `ACC[a]`,
whatever the others hold. -/
structure AgreeAt (a : BitVec 4) (s s' : State) : Prop where
  tableBuilt : s.TableBuilt
  tableBuilt' : s'.TableBuilt
  accCount_eq : s.accCount = s'.accCount
  exists_acc : a.toNat < s.accCount
  accRead_eq : accRead a s = accRead a s'

/-- One of the two runs a command that does not name `a`. -/
theorem AgreeAt.exec_other {a : BitVec 4} {s s' t : State} {i : Instr} (hs : AgreeAt a s s')
    (hw : i.accOk s.accCount = true) (hi : i.accOf ≠ some a) (hx : exec i s = .next t) : AgreeAt a t s' where
  tableBuilt := exec_tableBuilt hw hs.tableBuilt hx
  tableBuilt' := hs.tableBuilt'
  accCount_eq := (exec_accCount hw hx).trans hs.accCount_eq
  exists_acc := exec_accCount hw hx ▸ hs.exists_acc
  accRead_eq := (accRead_of_accOf_ne hw hi hx).trans hs.accRead_eq

/-- What a command that names `a` leaves in `ACC[a]` depends on what `ACC[a]` held alone. -/
theorem AgreeAt.accRead_exec {a : BitVec 4} {s s' t t' : State} {i : Instr} (hs : AgreeAt a s s')
    (hw : i.accOk s.accCount = true) (hi : i.accOf = some a) (hx : exec i s = .next t) (hx' : exec i s' = .next t') :
    accRead a t = accRead a t' := by
  have ha' : a.toNat < s'.accCount := hs.accCount_eq ▸ hs.exists_acc
  cases i with
  | reset b =>
    cases hi
    rw [accRead_of_reset hs.exists_acc hx, accRead_of_reset ha' hx']
  | write b data =>
    cases hi
    rw [accRead_of_write hs.tableBuilt hs.exists_acc hx, accRead_of_write hs.tableBuilt' ha' hx', hs.accRead_eq]
  | sum32 b | sum b pre =>
    have hacc := exec_acc_of_opcode hw hx nofun nofun
    have hacc' := exec_acc_of_opcode (hs.accCount_eq ▸ hw) hx' nofun nofun
    rw [accRead_congr a hacc, accRead_congr a hacc', hs.accRead_eq]
  | checksum | update | size | bsize | tblrd => cases hi

/-- Both run the same command, which names `a`. -/
theorem AgreeAt.exec_both {a : BitVec 4} {s s' t t' : State} {i : Instr} (hs : AgreeAt a s s')
    (hw : i.accOk s.accCount = true) (hi : i.accOf = some a) (hx : exec i s = .next t) (hx' : exec i s' = .next t') :
    AgreeAt a t t' := by
  have hw' : i.accOk s'.accCount = true := hs.accCount_eq ▸ hw
  have hn := exec_accCount hw hx
  exact ⟨exec_tableBuilt hw hs.tableBuilt hx, exec_tableBuilt hw' hs.tableBuilt' hx',
    (hn.trans hs.accCount_eq).trans (exec_accCount hw' hx').symm, hn ▸ hs.exists_acc, hs.accRead_exec hw hi hx hx'⟩

/-- Which host sent a command does not matter to `ACC[a]`. -/
theorem AgreeAt.withOwner {a : BitVec 4} {s s' : State} (hs : AgreeAt a s s') (h : Nat) :
    AgreeAt a { s with owner := some h } { s' with owner := some h } :=
  ⟨hs.tableBuilt, hs.tableBuilt', hs.accCount_eq, hs.exists_acc, hs.accRead_eq⟩

theorem execAll_cons_next {s u : State} {h : Nat} {i : Instr} (rest : List (Nat × Instr))
    (hx : exec i { s with owner := some h } = .next u) : execAll ((h, i) :: rest) s = execAll rest u := by
  simp only [execAll, hx]

/-- A program and its commands that name `a`, run on two COREs that agree on `ACC[a]`, end in two that do. -/
theorem AgreeAt.execAll_filter {a : BitVec 4} {s s' : State} {cmds : List (Nat × Instr)} (hs : AgreeAt a s s')
    (hwf : ∀ c ∈ cmds, c.2.wf s.accCount = true) :
    ∃ t t' : State, execAll cmds s = .next t ∧
      execAll (cmds.filter (fun c => c.2.accOf == some a)) s' = .next t' ∧ AgreeAt a t t' := by
  induction cmds generalizing s s' with
  | nil => exact ⟨s, s', rfl, rfl, hs⟩
  | cons c cmds ih =>
    obtain ⟨h, i⟩ := c
    have hw : i.accOk { s with owner := some h : State }.accCount = true := accOk_of_wf (hwf _ List.mem_cons_self)
    obtain ⟨u, hx⟩ := exec_completes hw rfl
    have hwfu : ∀ c ∈ cmds, c.2.wf u.accCount = true := fun c hc =>
      exec_accCount hw hx ▸ hwf c (List.mem_cons_of_mem _ hc)
    rw [execAll_cons_next cmds hx]
    by_cases hi : i.accOf = some a
    · obtain ⟨u', hx'⟩ := exec_completes (s := { s' with owner := some h }) (i := i) (hs.accCount_eq ▸ hw) rfl
      rw [List.filter_cons_of_pos (by simpa using hi), execAll_cons_next _ hx']
      exact ih ((hs.withOwner h).exec_both hw hi hx hx') hwfu
    · rw [List.filter_cons_of_neg (by simpa using hi)]
      have hu : AgreeAt a u { s' with owner := some h } := (hs.withOwner h).exec_other hw hi hx
      exact ih ⟨hu.tableBuilt, hs.tableBuilt', hu.accCount_eq, hu.exists_acc, hu.accRead_eq⟩ hwfu

/-- What a command responds is the same over every accumulator file that holds the value of the accumulator it names. -/
theorem exec_respond_accFile (s : State) (i : Instr) :
    ∃ bytes : List Byte, ∀ file : List Word, i.accOk file.length = true →
      (∀ a : BitVec 4, i.accOf = some a → accRead a { s with acc := file } = accRead a s) →
      ∃ (acc : List Word) (w : Word),
        exec i { s with acc := file } = respond bytes { s with acc := acc, w := w } := by
  cases i with
  | checksum data =>
    exact ⟨okResponse (be32 (updateWith (tableOf s.table) Config.initValue data)), fun _ _ _ => ⟨_, _, rfl⟩⟩
  | update prior data =>
    exact ⟨okResponse (be32 (updateWith (tableOf s.table) prior data)), fun _ _ _ => ⟨_, _, rfl⟩⟩
  | reset a => exact ⟨okResponse [], fun _ hw _ => ⟨_, _, withAcc_of_lt _ _ (lt_of_accOk hw rfl)⟩⟩
  | write a data =>
    exact ⟨okResponse (be32 (lenWord data)), fun _ hw _ => ⟨_, _, withAcc_of_lt _ _ (lt_of_accOk hw rfl)⟩⟩
  | sum32 a =>
    refine ⟨okResponse (be32 (accRead a s)), fun file hw hr => ⟨file, s.w, ?_⟩⟩
    rw [← hr a rfl]
    exact withAcc_of_lt _ _ (lt_of_accOk hw rfl)
  | sum a pre =>
    refine ⟨okResponse (pre ++ be32 (accRead a s)), fun file hw hr => ⟨file, s.w, ?_⟩⟩
    rw [← hr a rfl]
    exact withAcc_of_lt _ _ (lt_of_accOk hw rfl)
  | size => exact ⟨okResponse (be32 (BitVec.ofNat 32 Config.digestSize)), fun file _ _ => ⟨file, s.w, rfl⟩⟩
  | bsize => exact ⟨okResponse (be32 (BitVec.ofNat 32 Config.blockSize)), fun file _ _ => ⟨file, s.w, rfl⟩⟩
  | tblrd idx => exact ⟨okResponse (be32 (tableOf s.table idx)), fun file _ _ => ⟨file, s.w, rfl⟩⟩

/-- Settles O34: agreement on `ACC[a]` is kept through a program by `AgreeAt.execAll_filter`, and the response of a command
over another accumulator file is the one `exec_respond_accFile` gives for both. -/
theorem accumulatorsAreIndependent : Obligations.AccumulatorsAreIndependent := by
  refine ⟨fun s s' a cmds ht ht' hn ha hr hwf => ?_, fun s t file i hlen hwf hr hx => ?_⟩
  · obtain ⟨t, t', hrun, hrun', hagree⟩ := AgreeAt.execAll_filter ⟨ht, ht', hn, ha, hr⟩ hwf
    exact ⟨t, t', hrun, hrun', hagree.accRead_eq⟩
  · have hw := accOk_of_wf hwf
    obtain ⟨bytes, hfile⟩ := exec_respond_accFile s i
    obtain ⟨acc, w, he⟩ := hfile s.acc hw fun _ _ => rfl
    obtain ⟨acc', w', he'⟩ := hfile file (hlen ▸ hw) hr
    obtain ⟨h, ho, rfl⟩ := respond_next (he.symm.trans hx)
    exact ⟨_, he'.trans (respond_of_owner (s := { s with acc := acc', w := w' }) bytes ho), rfl⟩

/-! ### The packets of the commands (42_accumulator.md R142 to R154) -/

/-- A command whose `IMM24` is reserved has a packet of the header alone; `bits` is its `OPC` in place. -/
theorem encode_of_reserved {i : Instr} {op : Opcode} {bits : Word} (hi : i.opcode = op)
    (hb : op.code.setWidth 32 <<< 28 = bits) (hu : op.immUse = .reserved) :
    encode i = be32 (bits ||| i.asel.setWidth 32 <<< 24) := by
  subst hi
  have himm : i.imm.setWidth 32 = 0#32 := by
    cases i with
    | reset | sum32 | size | bsize => rfl
    | checksum | update | write | sum | tblrd => cases hu
  have hprior : i.priorBytes = [] := priorBytes_nil fun h => by rw [h] at hu; cases hu
  have hpayload : i.payload = [] := payload_nil_of_immUse fun h => by rw [h] at hu; cases hu
  rw [encode_eq, hprior, hpayload, header_eq_or, himm, hb, BitVec.or_zero, List.append_nil, List.append_nil]

/-- A command with a payload and no `PRIOR` has a packet of the header, with the payload's length, and the payload. -/
theorem encode_of_length {i : Instr} {op : Opcode} {bits : Word} (hi : i.opcode = op)
    (hb : op.code.setWidth 32 <<< 28 = bits) (hl : i.imm = BitVec.ofNat 24 i.payload.length) (hu : op ≠ .update)
    (hn : i.payload.length ≤ 2 ^ 24 - 1) :
    encode i = be32 (bits ||| i.asel.setWidth 32 <<< 24 ||| BitVec.ofNat 32 i.payload.length) ++ i.payload := by
  subst hi
  rw [encode_eq, priorBytes_nil hu, header_of_length hl hn, hb, List.nil_append]

/-! ### The faults of their headers (30_encoding.md R70, R71) -/

/-- A nonzero `IMM24` where it is reserved. -/
theorem decodeHeader_nonzero_imm (n : Nat) {hdr : Word} {op : Opcode} (hop : opcField hdr = op.code)
    (hu : op.immUse = .reserved) (hi : immField hdr ≠ 0#24) : decodeHeader n hdr = .illegal .reservedNonzero :=
  decodeHeader_reservedField (hop ▸ opcodeOf_code op) (by simp [reservedClear, hu, hi])

/-- A nonzero field where both `ASEL` and `IMM24` are reserved. -/
theorem decodeHeader_nonzero_field {n : Nat} {hdr : Word} {op : Opcode} (hop : opcField hdr = op.code)
    (hu : op.usesAsel = false) (hr : op.immUse = .reserved) (hf : aselField hdr ≠ 0#4 ∨ immField hdr ≠ 0#24) :
    decodeHeader n hdr = .illegal .reservedNonzero :=
  hf.elim (decodeHeader_nonzero_asel n hop hu) (decodeHeader_nonzero_imm n hop hr)

/-- An accumulator that does not exist, in a header whose reserved fields are zero. -/
theorem decodeHeader_missing_acc {n : Nat} {hdr : Word} {op : Opcode} (hop : opcField hdr = op.code)
    (hu : op.usesAsel = true) (hi : op.immUse = .length ∨ op.immUse = .reserved ∧ immField hdr = 0#24)
    (hn : n ≤ (aselField hdr).toNat) : decodeHeader n hdr = .illegal .badAsel := by
  refine decodeHeader_badAsel (hop ▸ opcodeOf_code op) ?_ hu hn
  rcases hi with hl | ⟨hr, hz⟩
  · simp [reservedClear, hu, hl]
  · simp [reservedClear, hu, hr, hz]

/-! ### The commands: responses and frames -/

section ReadsAndWrites
variable {s : State} {h : Nat} {a : BitVec 4}

theorem exec_reset (ho : s.owner = some h) (ha : a.toNat < s.accCount) : exec (.reset a) s = .next { s with
    acc := s.acc.set a.toNat 0#32, resp := s.resp.append h [0x00#8] } :=
  (withAcc_of_lt _ _ ha).trans (respond_of_owner (s := accWrite a Config.initValue s) _ ho)

theorem exec_write_eq (data : List Byte) (ho : s.owner = some h) (ht : s.TableBuilt) (ha : a.toNat < s.accCount) :
    exec (.write a data) s = .next { s with
      acc := s.acc.set a.toNat (crcUpdate (accRead a s) data)
      w := Config.idleW s.choices
      resp := s.resp.append h (0x00#8 :: be32 (BitVec.ofNat 32 data.length)) } := by
  rw [← updateWith_tableOf ht]
  exact (withAcc_of_lt _ _ ha).trans (respond_of_owner (s := { s with acc := _, w := _ }) _ ho)

theorem exec_sum32 (ho : s.owner = some h) (ha : a.toNat < s.accCount) : exec (.sum32 a) s = .next { s with
    resp := s.resp.append h (0x00#8 :: be32 (accRead a s)) } :=
  (withAcc_of_lt _ _ ha).trans (respond_of_owner _ ho)

theorem exec_sum (pre : List Byte) (ho : s.owner = some h) (ha : a.toNat < s.accCount) :
    exec (.sum a pre) s = .next { s with resp := s.resp.append h (0x00#8 :: (pre ++ be32 (accRead a s))) } :=
  (withAcc_of_lt _ _ ha).trans (respond_of_owner _ ho)

end ReadsAndWrites

/-- Two `SUM32`s in a row respond the same bytes: the first leaves `ACC` as it was. -/
theorem exec_sum32_twice {s t u : State} {h : Nat} {a : BitVec 4} (ho : s.owner = some h) (ha : a.toNat < s.accCount)
    (hx : exec (.sum32 a) s = .next t) (hy : exec (.sum32 a) t = .next u) :
    ∃ bytes : List Byte, t.resp = s.resp.append h bytes ∧ u.resp = t.resp.append h bytes := by
  cases hx.symm.trans (exec_sum32 ho ha)
  cases hy.symm.trans (exec_sum32 ho ha)
  exact ⟨_, rfl, rfl⟩

/-- Hardware reset clears every accumulator (10_state.md R34). -/
theorem accRead_hardwareReset (s : State) (a : BitVec 4) : accRead a (hardwareReset s) = 0#32 := by
  rw [accRead, hardwareReset_acc, List.getD_eq_getElem?_getD]
  exact List.getElem?_getD_replicate_default_eq _ _ _

/-- Settles O18: the packet, the effect and the header faults are the lemmas above. -/
theorem resetCommand : Obligations.ResetCommand :=
  ⟨fun _ => encode_of_reserved (op := .reset) rfl (by decide) rfl, fun _ _ _ ho ha => exec_reset ho ha,
    fun _ _ b ha => accRead_set b _ ha,
    fun n _ hop => decodeHeader_nonzero_imm n (op := .reset) hop rfl,
    fun _ _ hop hi => decodeHeader_missing_acc (op := .reset) hop rfl (.inr ⟨rfl, hi⟩)⟩

/-- Settles O19: as for `RESET`, with the identity cases of R128 and the chunking law of R123; the example is
evaluated. -/
theorem writeCommand : Obligations.WriteCommand :=
  ⟨fun _ _ hl => encode_of_length (op := .write) rfl (by decide) rfl nofun hl,
    fun _ _ _ data ho ht ha _ => ⟨_, exec_write_eq data ho ht ha⟩,
    fun _ _ b v ha => accRead_set b v ha,
    fun _ _ hop => decodeHeader_missing_acc (op := .write) hop rfl (.inl rfl),
    crcUpdate_nil, crcUpdate_crcUpdate, fun _ => crcUpdate_ones_of_zeros, by decide +kernel⟩

/-- Settles O20: a read leaves `ACC` as it was, and both clears put 0 there. -/
theorem sum32Command : Obligations.Sum32Command :=
  ⟨fun _ => encode_of_reserved (op := .sum32) rfl (by decide) rfl, fun _ _ _ ho ha => exec_sum32 ho ha,
    fun n _ hop => decodeHeader_nonzero_imm n (op := .sum32) hop rfl,
    fun _ _ hop hi => decodeHeader_missing_acc (op := .sum32) hop rfl (.inr ⟨rfl, hi⟩),
    fun _ _ _ _ _ ho ha => exec_sum32_twice ho ha, fun _ _ _ ha => accRead_of_reset ha,
    fun s a _ => accRead_hardwareReset s a⟩

/-- Settles O21: the bytes after the prefix are those of `exec_sum32`. -/
theorem sumCommand : Obligations.SumCommand :=
  ⟨fun _ _ hl => encode_of_length (op := .sum) rfl (by decide) rfl nofun hl,
    fun _ _ _ pre ho ha => ⟨exec_sum pre ho ha, exec_sum32 ho ha⟩,
    fun _ _ hop => decodeHeader_missing_acc (op := .sum) hop rfl (.inl rfl)⟩

/-- Settles O22: the command only responds the constant. -/
theorem sizeCommand : Obligations.SizeCommand :=
  ⟨by decide, fun _ _ ho => respond_of_owner _ ho,
    fun _ _ hop => decodeHeader_nonzero_field (op := .size) hop rfl rfl⟩

/-- Settles O23: as for `SIZE`. -/
theorem bsizeCommand : Obligations.BsizeCommand :=
  ⟨by decide, fun _ _ ho => respond_of_owner _ ho,
    fun _ _ hop => decodeHeader_nonzero_field (op := .bsize) hop rfl rfl⟩

/-! ### A clear and then appends (42_accumulator.md R156) -/

/-- `WRITE`s to an accumulator that holds 0 leave the checksum of their data. -/
theorem execAll_writes_of_zero {s : State} (h : Nat) {a : BitVec 4} (chunks : List (List Byte)) (ht : s.TableBuilt)
    (ha : a.toNat < s.accCount) (hz : accRead a s = 0#32) :
    ∃ t : State, execAll (writesOf h a chunks) s = .next t ∧ accRead a t = crcChecksum chunks.flatten := by
  obtain ⟨t, hrun, hacc, -⟩ := execAll_writes h chunks ht ha
  exact ⟨t, hrun, by rw [hacc, hz]; rfl⟩

/-- Settles O32: after the `RESET` the accumulator holds 0, as a fresh one does. -/
theorem resetReproducibility : Obligations.ResetReproducibility := by
  intro s h a chunks ht ha
  refine ⟨?_, execAll_writes_of_zero h chunks ht ha⟩
  have hx := exec_reset (s := { s with owner := some h }) rfl ha
  have hzero := accRead_of_reset (s := { s with owner := some h }) ha hx
  rw [execAll_cons_next _ hx]
  exact execAll_writes_of_zero h chunks ht (by simpa [State.accCount] using ha) hzero

end Sys2Proof.Machine
end

section
/-! Proofs about faults (60_exceptions.md): a legal command takes none (R170), how a header fault is taken (R172, R173),
the frozen CORE (R174), and that no run from a state of the invariant stops. -/

namespace Sys2Proof.Machine

/-! ### Legal commands (60_exceptions.md R170) -/

/-- Settles O26: of the state a legal command can have changed only `ACC` and `W` when it responds, by `exec_of_accOk`. -/
theorem legalCommandsNeverFault : Obligations.LegalCommandsNeverFault := by
  intro s h i ho hw
  obtain ⟨bytes, acc, w, hx, -⟩ := exec_of_accOk (accOk_of_wf hw)
  rw [respond_of_owner (s := { s with acc := acc, w := w }) _ ho] at hx
  exact ⟨_, bytes, hx, rfl, exec_accCount (accOk_of_wf hw) hx⟩

/-! ### Taking a header fault (60_exceptions.md R172, R173) -/

/-- A whole illegal header has arrived: the owner gets the code of the cause, and the header stays in `FAULT_HDR`. -/
theorem headerArrived_fault {s : State} {h : Nat} {hdr : Word} {c : Cause} (ho : s.owner = some h)
    (hd : decodeHeader s.accCount hdr = .illegal c) :
    headerArrived hdr s = .next { s with
      faulted := true, faultCause := c.code, faultHdr := hdr, pstate := .idle,
      resp := s.resp.append h [c.code] } :=
  (headerArrived_illegal hd).trans (raiseFault_of_owner c hdr ho)

/-- A faulted CORE stays as it is, however long it runs (60_exceptions.md R174). -/
theorem runSteps_frozen {s : State} (hf : s.faulted = true) (k : Nat) : runSteps k s = .next s := by
  induction k with
  | zero => rfl
  | succ k ih => rw [runSteps_next (step_frozen hf), ih]

/-- Settles O44: the step that takes the fourth header byte decodes the header and faults; an idle CORE takes a header in
5 steps, and then it is frozen. -/
theorem headerFaultEntry : Obligations.HeaderFaultEntry := by
  constructor
  · intro s h b0 b1 b2 b3 rest c ha hp ho hb hg hd
    rw [step_hdr_fourth ha ho hg hp hb, headerArrived_fault (s := headerState h rest b0 b1 b2 b3 s) ho hd]
    cases c <;> rfl
  · intro s h k b0 b1 b2 b3 rest c ha hp hwf hc hg hd
    have hbytes : s.cmd.get h = be32 (be32inv b0 b1 b2 b3) ++ rest := by rw [hg, be32_inv_bytes]; rfl
    have hfault := headerArrived_fault (s := headerTaken h (be32inv b0 b1 b2 b3) rest s) rfl hd
    rw [runSteps_add ((runSteps_header ha hp hwf hc hbytes).trans hfault), runSteps_frozen rfl]
    refine ⟨_, rfl, rfl, ?_, rfl, rfl, rfl, rfl⟩
    exact (Streams.get_put hwf h h rest).trans (if_pos rfl)

/-! ### Runs that every event goes on -/

/-- Where each of the events answers a next state and keeps `P`, so does the run. -/
theorem runEvents_completes {P : State → Prop} {events : List HostEvent} {s : State}
    (hnext : ∀ e ∈ events, ∀ u : State, P u → ∃ v : State, applyEvent e u = .next v ∧ P v) (hs : P s) :
    ∃ t : State, runEvents events s = .next t ∧ P t := by
  induction events generalizing s with
  | nil => exact ⟨s, rfl, hs⟩
  | cons e events ih =>
    obtain ⟨u, hu, hPu⟩ := hnext e List.mem_cons_self s hs
    obtain ⟨t, ht, hPt⟩ := ih (fun e' he' => hnext e' (List.mem_cons_of_mem e he')) hPu
    exact ⟨t, by simpa only [runEvents, hu] using ht, hPt⟩

/-! ### The frozen CORE (60_exceptions.md R174) -/

/-- From `s` to `t` hosts have sent and taken bytes, and nothing else has happened. -/
structure HostsOnly (s t : State) : Prop where
  eq : t = { s with cmd := t.cmd, resp := t.resp }
  cmd_wf : t.cmd.wf = true
  resp_wf : t.resp.wf = true
  sent : ∀ h : Nat, ∃ bytes : List Byte, t.cmd.get h = s.cmd.get h ++ bytes
  taken : ∀ h : Nat, ∃ n : Nat, t.resp.get h = (s.resp.get h).drop n

theorem HostsOnly.refl {s : State} (hc : s.cmd.wf = true) (hr : s.resp.wf = true) : HostsOnly s s where
  eq := rfl
  cmd_wf := hc
  resp_wf := hr
  sent _ := ⟨[], (List.append_nil _).symm⟩
  taken _ := ⟨0, rfl⟩

theorem HostsOnly.faulted {s t : State} (ht : HostsOnly s t) : t.faulted = s.faulted := by
  rw [ht.eq]

theorem HostsOnly.trans_send {s t : State} (ht : HostsOnly s t) (h : Nat) (bytes : List Byte) :
    HostsOnly s (hostSend h bytes t) where
  eq := congrArg (hostSend h bytes) ht.eq
  cmd_wf := Streams.wf_append h bytes ht.cmd_wf
  resp_wf := ht.resp_wf
  sent k := by
    obtain ⟨before, hb⟩ := ht.sent k
    rw [hostSend_cmd, Streams.get_append ht.cmd_wf]
    split
    · next hk => exact ⟨before ++ bytes, by rw [← hk, hb, List.append_assoc]⟩
    · exact ⟨before, hb⟩
  taken := ht.taken

theorem HostsOnly.trans_take {s t : State} (ht : HostsOnly s t) (h n : Nat) : HostsOnly s (hostTake h n t) where
  eq := congrArg (hostTake h n) ht.eq
  cmd_wf := ht.cmd_wf
  resp_wf := Streams.wf_drop h n ht.resp_wf
  sent := ht.sent
  taken k := by
    obtain ⟨m, hm⟩ := ht.taken k
    rw [hostTake_resp, Streams.get_drop ht.resp_wf]
    split
    · next hk => exact ⟨m + n, by rw [← hk, hm, List.drop_drop]⟩
    · exact ⟨m, hm⟩

/-- From a faulted `s`, no event but hardware reset does more than a host's sending or taking. -/
theorem HostsOnly.trans_event {s t : State} {e : HostEvent} (hf : s.faulted = true) (he : e ≠ .hardwareReset)
    (ht : HostsOnly s t) : ∃ u : State, applyEvent e t = .next u ∧ HostsOnly s u := by
  cases e with
  | tick => exact ⟨t, step_frozen (ht.faulted.trans hf), ht⟩
  | send h bytes => exact ⟨_, rfl, ht.trans_send h bytes⟩
  | take h n => exact ⟨_, rfl, ht.trans_take h n⟩
  | hardwareReset => exact absurd rfl he

/-- Settles O46: a step of a faulted CORE changes nothing, so what a run leaves is what the hosts have sent and taken. -/
theorem faultedCoreIsFrozen : Obligations.FaultedCoreIsFrozen := by
  refine ⟨fun s hf => ⟨step_frozen hf, fun hend => ?_⟩, fun s t hx => ?_, fun s events hf hc hr hno => ?_⟩
  · obtain ⟨-, -, -, hclear⟩ := hend
    simp [hf] at hclear
  · cases hx
    rfl
  · obtain ⟨t, hrun, ht⟩ := runEvents_completes
      (fun e he _ hu => hu.trans_event hf fun heq => hno (heq ▸ he)) (HostsOnly.refl hc hr)
    exact ⟨t, hrun, ht.eq, fun h => ⟨ht.sent h, ht.taken h⟩⟩

/-! ### With an owner no transition stops (30_encoding.md R75) -/

section
variable {s : State} {h : Nat} (ho : s.owner = some h)
include ho

theorem execute_completes : ∃ t : State, execute s = .next t := by
  cases hd : decodeHeader s.accCount s.hdr with
  | legal op =>
    rw [execute_legal hd]
    exact exec_completes (s := { s with pstate := .idle }) (accOk_operands hd) ho
  | illegal c => exact ⟨_, (execute_illegal hd).trans (raiseFault_of_owner c s.hdr ho)⟩

theorem headerArrived_completes (hdr : Word) : ∃ t : State, headerArrived hdr s = .next t := by
  cases hd : decodeHeader s.accCount hdr with
  | illegal c => exact ⟨_, headerArrived_fault ho hd⟩
  | legal op =>
    have run (he : endsWithHeader op = true) : ∃ t : State, headerArrived hdr s = .next t :=
      headerArrived_endsWithHeader hd he ▸ execute_completes ho
    cases op with
    | update => exact ⟨_, headerArrived_update hd⟩
    | checksum => exact ⟨_, headerArrived_data (.inl hd)⟩
    | write => exact ⟨_, headerArrived_data (.inr hd)⟩
    | sum => exact ⟨_, headerArrived_sum hd⟩
    | reset | sum32 | size | bsize | tblrd => exact run rfl

theorem acceptHdr_completes : ∃ t : State, acceptHdr s = .next t := by
  cases hb : takeByte s with
  | none => exact ⟨s, acceptHdr_hold hb⟩
  | some bt =>
    obtain ⟨b, u⟩ := bt
    by_cases hl : (u.hdrBuf ++ [b]).length = 4
    · obtain ⟨b0, b1, b2, b3, hl⟩ := List.length_eq_four.mp hl
      obtain ⟨k, rest, -, -, rfl⟩ := takeByte_cases hb
      rw [acceptHdr_fourth hb hl]
      exact headerArrived_completes (by exact ho) _
    · exact ⟨_, acceptHdr_other hb hl⟩

theorem acceptPayload_completes : ∃ t : State, acceptPayload s = .next t := by
  by_cases hr : s.remain = 0#24
  · exact acceptPayload_done hr ▸ execute_completes ho
  · cases hb : takeByte s with
    | none => exact ⟨s, acceptPayload_hold hr hb⟩
    | some bt => exact ⟨_, acceptPayload_byte hr hb⟩

end

/-- Inside a packet there is an owner (10_state.md R28). -/
theorem State.ParserOk.owner {s : State} (hs : s.ParserOk) (hp : s.pstate ≠ .idle) : ∃ h : Nat, s.owner = some h := by
  rw [← Option.isSome_iff_exists]
  cases hps : s.pstate with
  | idle => exact absurd hps hp
  | hdr => exact ((parserOk_hdr hps).mp hs).2.2
  | prior => exact ((parserOk_prior hps).mp hs).2.1
  | data => exact ((parserOk_data hps).mp hs).2.1
  | pfx => exact ((parserOk_pfx hps).mp hs).2.1

theorem accept_completes {s : State} (hs : s.ParserOk) : ∃ t : State, accept s = .next t := by
  have payload (hp : s.pstate = .data ∨ s.pstate = .pfx) : ∃ t : State, accept s = .next t := by
    obtain ⟨h, ho⟩ := hs.owner (by rcases hp with hp | hp <;> simp [hp])
    exact accept_payload hp ▸ acceptPayload_completes ho
  cases hp : s.pstate with
  | idle => exact ⟨_, accept_idle hp⟩
  | hdr =>
    obtain ⟨h, ho⟩ := hs.owner (by simp [hp])
    exact accept_hdr hp ▸ acceptHdr_completes ho
  | prior => exact ⟨_, accept_prior hp⟩
  | data => exact payload (.inl hp)
  | pfx => exact payload (.inr hp)

/-! ### From a state of the invariant no event stops -/

theorem step_completes {s : State} (hs : s.Inv) : ∃ t : State, step s = .next t := by
  cases hf : s.faulted with
  | true => exact ⟨s, step_frozen hf⟩
  | false =>
    cases hr : s.tableReady with
    | false => exact ⟨_, step_generate hf hr⟩
    | true => exact step_accept hf hr ▸ accept_completes hs.parser_ok

theorem hostSend_inv {s : State} (hs : s.Inv) (h : Nat) (bytes : List Byte) : (hostSend h bytes s).Inv :=
  { hs with cmd_wf := Streams.wf_append h bytes hs.cmd_wf }

theorem hostTake_inv {s : State} (hs : s.Inv) (h n : Nat) : (hostTake h n s).Inv :=
  { hs with resp_wf := Streams.wf_drop h n hs.resp_wf }

/-- Hardware reset leads back to the state after reset, but for the bytes that hosts have sent (entry 9). -/
theorem hardwareReset_inv {s : State} (hs : s.Inv) : (hardwareReset s).Inv :=
  { resetWith_inv s.genLatency s.tableImpl hs.accCount_pos hs.accCount_le with cmd_wf := hs.cmd_wf }

theorem applyEvent_completes (e : HostEvent) {s : State} (hs : s.Inv) :
    ∃ t : State, applyEvent e s = .next t ∧ t.Inv := by
  cases e with
  | tick =>
    obtain ⟨t, ht⟩ := step_completes hs
    exact ⟨t, ht, stepKeepsTheInvariant s t hs ht⟩
  | send h bytes => exact ⟨_, rfl, hostSend_inv hs h bytes⟩
  | take h n => exact ⟨_, rfl, hostTake_inv hs h n⟩
  | hardwareReset => exact ⟨_, rfl, hardwareReset_inv hs⟩

/-- Settles O55: each event of the run completes and keeps the invariant, which gives every response its owner. -/
theorem runsNeverStop : Obligations.RunsNeverStop := by
  intro events s hs
  obtain ⟨t, hrun, -⟩ := runEvents_completes (fun e _ _ hu => applyEvent_completes e hu) hs
  exact ⟨t, hrun⟩

end Sys2Proof.Machine
end

section
/-! Proofs about hardware reset and the hazards (70_reset_and_hazards.md): what reset does (R190, R191), the generator after
it (R193, R196), and that every run of events keeps the invariant (R199). -/

namespace Sys2Proof.Machine

/-! ### Events keep the invariant (70_reset_and_hazards.md R199) -/

theorem applyEvent_inv {s t : State} {e : HostEvent} (hs : s.Inv) (hx : applyEvent e s = .next t) : t.Inv := by
  obtain ⟨u, hu, hinv⟩ := applyEvent_completes e hs
  obtain rfl : u = t := Host.Outcome.next.inj (hu.symm.trans hx)
  exact hinv

/-- Settles O54: each event keeps the invariant, so a run of events does. -/
theorem eventsKeepTheInvariant : Obligations.EventsKeepTheInvariant :=
  fun _ _ _ hs hx => runEvents_keeps (P := State.Inv) (fun _ _ _ _ hu huv => applyEvent_inv hu huv) hs hx

/-! ### Hardware reset (70_reset_and_hazards.md R190, R191) -/

/-- Settles O50: each value is the one the `hardwareReset` lemma of its field gives. -/
theorem hardwareResetValues : Obligations.HardwareResetValues := fun s =>
  ⟨hardwareReset s, rfl, hardwareReset_tableReady s, hardwareReset_acc s, hardwareReset_pstate s,
    hardwareReset_hdrBuf s, hardwareReset_priorBuf s, hardwareReset_remain s, hardwareReset_owner s,
    hardwareReset_faulted s, hardwareReset_faultCause s, hardwareReset_faultHdr s,
    fun h => congrArg (Streams.get · h) (hardwareReset_resp s), hardwareReset_genIdx s, hardwareReset_genBit s,
    hardwareReset_genW s, hardwareReset_cmd s, hardwareReset_accCount s, hardwareReset_genLatency s,
    hardwareReset_tableImpl s⟩

/-! ### The hold while the table is not ready (70_reset_and_hazards.md R196) -/

theorem genTick_genLeft (s : State) : (genTick s).genLeft = s.genLeft := by
  unfold genTick
  split
  · split <;> rfl
  · rfl

/-- Every step of the generator, from any state, sets `TABLE_READY` or counts down. -/
theorem genStep_ready_or_lt (s : State) : (genStep s).tableReady = true ∨ (genStep s).genLeft < s.genLeft := by
  unfold genStep
  split
  · exact .inl rfl
  · have hdec : s.genLeft - 1 < s.genLeft := by omega
    split
    · exact .inr hdec
    · exact .inr ((genTick_genLeft _).trans_lt hdec)

/-- So the hold ends after finitely many steps. -/
theorem runSteps_until_ready (s : State) (hf : s.faulted = false) :
    ∃ (k : Nat) (t : State), runSteps k s = .next t ∧ t.tableReady = true := by
  induction hn : s.genLeft using Nat.strong_induction_on generalizing s with
  | h n ih =>
    cases hr : s.tableReady with
    | true => exact ⟨0, s, rfl, hr⟩
    | false =>
      have hstep := step_generate hf hr
      rcases genStep_ready_or_lt s with hready | hlt
      · exact ⟨1, genStep s, (runSteps_one s).trans hstep, hready⟩
      · have hfault : (genStep s).faulted = false := (genStep_frame s).sameFault.1.trans hf
        obtain ⟨k, t, hrun, ht⟩ := ih _ (hn ▸ hlt) (genStep s) hfault rfl
        exact ⟨k + 1, t, (runSteps_next hstep).trans hrun, ht⟩

/-- Settles O47: the step is one of the generator, whose frame is `genStep_frame`. -/
theorem tableReadyHold : Obligations.TableReadyHold :=
  fun s hf hr => ⟨⟨genStep s, step_generate hf hr, genStep_frame s⟩, runSteps_until_ready s hf⟩

/-! ### The generator after hardware reset (70_reset_and_hazards.md R193) -/

theorem State.GenOk.step {s : State} (h : s.GenOk) (hr : s.tableReady = false) :
    Machine.step s = .next (genStep s) := by
  obtain ⟨-, hf, -⟩ := h
  exact step_generate hf hr

/-- While it has steps left the generator has not set `TABLE_READY`, and it counts down by one a step. -/
theorem runSteps_generating {s : State} {k : Nat} (h : s.GenOk) (hr : s.tableReady = false) (hk : k < s.genLeft) :
    ∃ t : State, runSteps k s = .next t ∧ t.GenOk ∧ t.tableReady = false ∧ t.genLeft = s.genLeft - k := by
  induction k with
  | zero => exact ⟨s, rfl, h, hr, rfl⟩
  | succ k ih =>
    obtain ⟨t, hrun, ht, htr, hleft⟩ := ih (by omega)
    obtain ⟨hready, hleft', hgen⟩ := genStep_earlier ht htr (by omega)
    exact ⟨genStep t, (runSteps_last hrun).trans (ht.step htr), hgen, hready, by omega⟩

/-- With its last step the generator finishes the table. -/
theorem runSteps_generated {s : State} (h : s.GenOk) (hr : s.tableReady = false) (hpos : 1 ≤ s.genLeft) :
    ∃ t : State, runSteps s.genLeft s = .next t ∧ t.tableReady = true ∧ t.table = builtTable := by
  obtain ⟨n, hn⟩ : ∃ n : Nat, s.genLeft = n + 1 := ⟨s.genLeft - 1, by omega⟩
  obtain ⟨t, hrun, ht, htr, hleft⟩ := runSteps_generating (k := n) h hr (by omega)
  exact ⟨genStep t, hn ▸ (runSteps_last hrun).trans (ht.step htr), genStep_last ht (by omega)⟩

/-- Settles O48: hardware reset sets the generator's invariant up and gives it `GEN_LATENCY` steps. -/
theorem generatorBuildsTheTable : Obligations.GeneratorBuildsTheTable := by
  intro s hpos
  have hgen := hardwareReset_genOk s
  have hnot := hardwareReset_tableReady s
  refine ⟨?_, fun k hk => ?_⟩
  · obtain ⟨t, hrun, hready, htab⟩ := runSteps_generated hgen hnot hpos
    exact ⟨t, hrun, hready, htab, fun i => htab ▸ tableOf_builtTable i⟩
  · obtain ⟨t, hrun, -, hready, -⟩ := runSteps_generating hgen hnot hk
    exact ⟨t, hrun, hready⟩

end Sys2Proof.Machine
end

section
/-! Proofs about programs of packets: a read after a write (70_reset_and_hazards.md R198), and that one host's packets back
to back do what their commands do at the operation level (R201, 20_memory.md R53). -/

namespace Sys2Proof.Machine

/-! ### A read after a write (70_reset_and_hazards.md R198) -/

/-- Settles O31: the `WRITE` leaves the updated value in the accumulator, and `SUM32` responds what it finds there,
whichever host asks. -/
theorem readAfterWrite : Obligations.ReadAfterWrite := by
  intro s h k a data ht ha
  obtain ⟨t, hx, -, hn, hacc, -⟩ := exec_write (s := { s with owner := some h }) data rfl ht ha
  have hsum := exec_sum32 (s := { t with owner := some k }) (a := a) rfl (hn.symm ▸ ha)
  have hread : accRead a { t with owner := some k } = crcUpdate (accRead a s) data := hacc
  rw [hread] at hsum
  exact ⟨t, _, execAll_cons_next [] hx, execAll_cons_next [] hsum, rfl⟩

/-! ### What a command sees of the state (00_scope.md R7) -/

/-- What a command responds, and what it leaves in `ACC`, follow from the table and `ACC` alone: they are the same in
every state `u` that is given those of `s`. -/
theorem exec_determined {s : State} {i : Instr} (hw : i.accOk s.accCount = true) :
    ∃ (bytes : List Byte) (acc : List Word), ∀ u : State, ∃ w : Word,
      exec i { u with table := s.table, acc := s.acc } =
        respond bytes { u with table := s.table, acc := acc, w := w } := by
  cases i with
  | checksum data =>
    exact ⟨okResponse (be32 (updateWith (tableOf s.table) Config.initValue data)), s.acc, fun _ => ⟨_, rfl⟩⟩
  | update prior data =>
    exact ⟨okResponse (be32 (updateWith (tableOf s.table) prior data)), s.acc, fun _ => ⟨_, rfl⟩⟩
  | reset a =>
    exact ⟨okResponse [], s.acc.set a.toNat Config.initValue, fun _ => ⟨_, withAcc_of_lt _ _ (lt_of_accOk hw rfl)⟩⟩
  | write a data =>
    exact ⟨okResponse (be32 (lenWord data)), s.acc.set a.toNat (updateWith (tableOf s.table) (accRead a s) data),
      fun _ => ⟨_, withAcc_of_lt _ _ (lt_of_accOk hw rfl)⟩⟩
  | sum32 a =>
    exact ⟨okResponse (be32 (accRead a s)), s.acc, fun u => ⟨u.w, withAcc_of_lt _ _ (lt_of_accOk hw rfl)⟩⟩
  | sum a pre =>
    exact ⟨okResponse (pre ++ be32 (accRead a s)), s.acc, fun u => ⟨u.w, withAcc_of_lt _ _ (lt_of_accOk hw rfl)⟩⟩
  | size => exact ⟨okResponse (be32 (BitVec.ofNat 32 Config.digestSize)), s.acc, fun u => ⟨u.w, rfl⟩⟩
  | bsize => exact ⟨okResponse (be32 (BitVec.ofNat 32 Config.blockSize)), s.acc, fun u => ⟨u.w, rfl⟩⟩
  | tblrd idx => exact ⟨okResponse (be32 (tableOf s.table idx)), s.acc, fun u => ⟨u.w, rfl⟩⟩

/-- Two states that a program at the operation level cannot tell apart. -/
structure SameOps (s s' : State) : Prop where
  table : s.table = s'.table
  acc : s.acc = s'.acc
  resp : s.resp = s'.resp

/-- A command of one host keeps them so. -/
theorem SameOps.exec {s s' t : State} {h : Nat} {i : Instr} (hs : SameOps s s') (ho : s.owner = some h)
    (hw : i.accOk s.accCount = true) (hx : exec i s = .next t) :
    ∃ t' : State, Machine.exec i { s' with owner := some h } = .next t' ∧ SameOps t t' := by
  obtain ⟨bytes, acc, hdet⟩ := exec_determined hw
  obtain ⟨w, he⟩ := hdet s
  obtain ⟨w', he'⟩ := hdet { s' with owner := some h }
  cases hx.symm.trans (he.trans (respond_of_owner bytes ho))
  rw [hs.table, hs.acc] at he'
  exact ⟨_, he'.trans (respond_of_owner bytes rfl), hs.table, rfl, congrArg (Streams.append · h bytes) hs.resp⟩

/-! ### One host's packets back to back (70_reset_and_hazards.md R201) -/

theorem encode_append_ne_nil (i : Instr) (rest : List Byte) : encode i ++ rest ≠ [] := by
  rw [encode_eq, be32_eq]
  exact nofun

/-- Of a lone host with bytes to send, those are all the streams hold. -/
theorem Streams.put_nil_of_ne_nil (h : Nat) {bs : List Byte} (hb : bs ≠ []) : Streams.put [] h bs = [(h, bs)] := by
  simp [Streams.put, hb]

theorem chooseHost_lone (k h : Nat) {bs : List Byte} (hb : bs ≠ []) :
    chooseHost k (Streams.put [] h bs).ready = some h := by
  rw [Streams.put_nil_of_ne_nil h hb]
  simp [Streams.ready, hb, chooseHost]

/-- The CORE is between packets of host `h`, the one host that sends, whose unread bytes are `bs`. -/
structure ServesLone (h : Nat) (bs : List Byte) (s : State) : Prop where
  accepting : s.Accepting
  idle : s.pstate = .idle
  cmd : s.cmd = Streams.put [] h bs

/-- It takes the next packet of that host, runs its command, and is between packets again. -/
theorem ServesLone.packet {s : State} {h : Nat} {i : Instr} {rest : List Byte}
    (hs : ServesLone h (encode i ++ rest) s) (hw : i.wf s.accCount = true) :
    ∃ t : State, runSteps (packetSteps i) s = .next t ∧ exec i (acceptedState h i rest s) = .next t ∧
      ServesLone h rest t ∧ t.accCount = s.accCount := by
  have hne := encode_append_ne_nil i rest
  have hwf : s.cmd.wf = true := hs.cmd ▸ Streams.wf_put h _ rfl
  have hc : chooseHost s.choices s.cmd.ready = some h := hs.cmd ▸ chooseHost_lone s.choices h hne
  have hg : s.cmd.get h = encode i ++ rest := by rw [hs.cmd, Streams.get_put rfl, if_pos rfl]
  have hrun := runSteps_packet hs.accepting hs.idle hwf hc hg hw
  have hacc : i.accOk (acceptedState h i rest s).accCount = true := accOk_of_wf hw
  obtain ⟨t, hx⟩ := exec_completes hacc rfl
  have hn : t.accCount = s.accCount := (exec_accCount hacc hx).trans rfl
  refine ⟨t, hrun.trans hx, hx, ?_, hn⟩
  obtain ⟨-, -, -, -, -, rfl, -⟩ := exec_next hacc hx
  have hcmd : s.cmd.put h rest = Streams.put [] h rest := by rw [hs.cmd, Streams.put_put rfl]
  exact ⟨hs.accepting, rfl, hcmd⟩

/-- The packets of a program, and its commands at the operation level from a state that cannot be told apart, end in
states that cannot be told apart, with every byte consumed. -/
theorem ServesLone.program {s s' : State} {h : Nat} {cmds : List Instr}
    (hs : ServesLone h (cmds.map encode).flatten s) (hsame : SameOps s s')
    (hwf : ∀ i ∈ cmds, i.wf s.accCount = true) :
    ∃ t t' : State, runSteps (cmds.map packetSteps).sum s = .next t ∧ ServesLone h [] t ∧
      execAll (cmds.map fun i => (h, i)) s' = .next t' ∧ SameOps t t' := by
  induction cmds generalizing s s' with
  | nil => exact ⟨s, s', rfl, hs, rfl, hsame⟩
  | cons i cmds ih =>
    have hw := hwf i List.mem_cons_self
    obtain ⟨u, hrun, hx, hu, hn⟩ := ServesLone.packet (rest := (cmds.map encode).flatten) hs hw
    have hacc : SameOps (acceptedState h i (cmds.map encode).flatten s) s' := ⟨hsame.table, hsame.acc, hsame.resp⟩
    obtain ⟨u', hx', hsame'⟩ := hacc.exec rfl (accOk_of_wf hw) hx
    obtain ⟨t, t', hrest, ht, hops, hend⟩ := ih hu hsame' fun j hj => hn ▸ hwf j (List.mem_cons_of_mem i hj)
    refine ⟨t, t', ?_, ht, (execAll_cons_next _ hx').trans hops, hend⟩
    rw [List.map_cons, List.sum_cons, runSteps_add hrun, hrest]

theorem flatten_encode_ne_nil {cmds : List Instr} (hne : cmds ≠ []) : (cmds.map encode).flatten ≠ [] := by
  obtain ⟨i, rest, rfl⟩ := List.exists_cons_of_ne_nil hne
  exact encode_append_ne_nil i _

/-- Settles O39, by induction on the program: each packet runs its command in a state that the operation level cannot
tell from its own. -/
theorem packetProgramRunsToItsEnd : Obligations.PacketProgramRunsToItsEnd := by
  intro s h cmds ha hp hne hcmd hwf
  have hs : ServesLone h (cmds.map encode).flatten s :=
    ⟨ha, hp, hcmd.trans (Streams.put_nil_of_ne_nil h (flatten_encode_ne_nil hne)).symm⟩
  obtain ⟨t, u, hrun, ht, hops, hend⟩ := hs.program ⟨rfl, rfl, rfl⟩ hwf
  obtain ⟨hclear, hready⟩ := ht.accepting
  exact ⟨t, u, hrun, ⟨ht.cmd, ht.idle, hready, hclear⟩, hops, hend.acc, hend.resp⟩

end Sys2Proof.Machine
end
